-- ==== Sys2Proof/Word.lean ====
section
/-! DEFINITION. The machine's word types (spec 00_scope.md R6, R7, R9; 30_encoding.md R300).
Each is an abbreviation of a bit vector, so the library's lemmas about bit vectors apply. -/

namespace Sys2Proof

/-- One character of HEXBUF, or FINFO, or HEXLEN: 8 bits. -/
abbrev Byte := BitVec 8

/-- One limb of a value: 32 bits (00_scope.md R6). -/
abbrev Limb := BitVec 32

/-- One bus word: the data of a window access, and so a command word (20_memory.md R203, 30_encoding.md R300). -/
abbrev Word := BitVec 32

/-- A 64-bit scalar: SR and DATA (00_scope.md R7). -/
abbrev Scalar := BitVec 64

/-- A 256-bit unsigned value, the content of a value register (10_state.md R101). Its limb 0 is its most significant
32 bits (00_scope.md R10). -/
abbrev Value := BitVec 256

/-- One hexadecimal digit's value: 4 bits (00_scope.md R15, "Nibble"). -/
abbrev Nibble := BitVec 4

end Sys2Proof
end

