-- ==== Sys2Proof/Syntax.lean ====
section
/-! DEFINITION. The commands of U256CORE: one constructor per row of spec/opcode_table.json (30_encoding.md R310).
The operands stand in the order of the assembler syntax (30_encoding.md R330). A command's scalar operand is the DATA
register, not part of the command word (R300), so it is no argument here. -/

namespace Sys2Proof

/-- The number of a value register, v0 to v15; every number names a register (30_encoding.md R303). -/
abbrev VReg := Fin 16

/-- A limb index field: 0 to 7 name a limb, 8 to 15 are legal encodings that fault when executed (30_encoding.md R304). -/
abbrev LimbIdx := Fin 16

inductive Instr where
  | nop
  | zero (rd : VReg)
  | mov (rd rs1 : VReg)
  | ldi32 (rd : VReg)
  | ldi64 (rd : VReg)
  | limbrd (rs1 : VReg) (idx : LimbIdx)
  | limbwr (rd : VReg) (idx : LimbIdx)
  | add (rd rs1 rs2 : VReg)
  | sub (rd rs1 rs2 : VReg)
  | mul (rd rs1 rs2 : VReg)
  | div (rd rs1 rs2 : VReg)
  | mod (rd rs1 rs2 : VReg)
  | divmod (rd rd2 rs1 rs2 : VReg)
  | and (rd rs1 rs2 : VReg)
  | or (rd rs1 rs2 : VReg)
  | xor (rd rs1 rs2 : VReg)
  | not (rd rs1 : VReg)
  | shl (rd rs1 : VReg)
  | shr (rd rs1 : VReg)
  | shlv (rd rs1 rs2 : VReg)
  | shrv (rd rs1 rs2 : VReg)
  | cmpeq (rs1 rs2 : VReg)
  | cmplt (rs1 rs2 : VReg)
  | cmple (rs1 rs2 : VReg)
  | cmpgt (rs1 rs2 : VReg)
  | cmpge (rs1 rs2 : VReg)
  | hexparse (rd : VReg)
  | hexfmt (rs1 : VReg)
  | trunc32 (rs1 : VReg)
  | trunc64 (rs1 : VReg)
  | tzcnt (rs1 : VReg)
  | hash (rs1 : VReg)
  deriving DecidableEq, Repr

end Sys2Proof
end

