-- ==== Sys2Proof/WellFormed.lean ====
section
/-! DEFINITION. Which instruction terms the command encoding admits (30_encoding.md R311). Register numbers and limb
indices are in range by their types, so one check is left. -/

namespace Sys2Proof

/-- The two destinations of DIVMOD differ (30_encoding.md R311(c)); every other term is well formed. -/
def Instr.wf : Instr → Bool
  | .divmod rd rd2 _ _ => rd != rd2
  | .nop => true
  | .zero _ => true
  | .mov _ _ => true
  | .ldi32 _ => true
  | .ldi64 _ => true
  | .limbrd _ _ => true
  | .limbwr _ _ => true
  | .add _ _ _ => true
  | .sub _ _ _ => true
  | .mul _ _ _ => true
  | .div _ _ _ => true
  | .mod _ _ _ => true
  | .and _ _ _ => true
  | .or _ _ _ => true
  | .xor _ _ _ => true
  | .not _ _ => true
  | .shl _ _ => true
  | .shr _ _ => true
  | .shlv _ _ _ => true
  | .shrv _ _ _ => true
  | .cmpeq _ _ => true
  | .cmplt _ _ => true
  | .cmple _ _ => true
  | .cmpgt _ _ => true
  | .cmpge _ _ => true
  | .hexparse _ => true
  | .hexfmt _ => true
  | .trunc32 _ => true
  | .trunc64 _ => true
  | .tzcnt _ => true
  | .hash _ => true

end Sys2Proof
end

