-- ==== Sys2Proof/Decode.lean ====
section
/-! DEFINITION. The command word (30_encoding.md R300 to R313, R333): its fields, the format masks, the opcode map, the
decoder (total on every 32-bit word, refusing by name) and the encoder. A command word is one bus word, with no byte
order involved (20_memory.md R207). -/

namespace Sys2Proof

/-- The formats of 30_encoding.md R302. -/
inductive Format where
  | n | d | ds | dss | ddss | s | ss | si | di
  deriving DecidableEq, Repr

/-- Why a word is illegal: the three cases (a), (b) and (c) of 30_encoding.md R311. -/
inductive Illegal where
  | unassignedOpcode
  | reservedBits
  | divmodSameDest
  deriving DecidableEq, Repr

/-- The operand fields of a command word (30_encoding.md R301). `rs2` is also the limb index idx. -/
structure Fields where
  rd  : Fin 16
  rs1 : Fin 16
  rs2 : Fin 16
  rd2 : Fin 16
  deriving DecidableEq, Repr

/-- A row of the opcode map (30_encoding.md R310). -/
structure OpRow where
  op    : BitVec 6
  fmt   : Format
  build : Fields → Instr

/-- The mask of a format: a 1 in every bit the decoder compares (30_encoding.md R302). -/
def Format.mask : Format → Word
  | .n    => 0xFFFFFFFF#32
  | .d    => 0xFC3FFFFF#32
  | .ds   => 0xFC03FFFF#32
  | .dss  => 0xFC003FFF#32
  | .ddss => 0xFC0003FF#32
  | .s    => 0xFFC3FFFF#32
  | .ss   => 0xFFC03FFF#32
  | .si   => 0xFFC03FFF#32
  | .di   => 0xFC3C3FFF#32

/-- The opcode field, bits [31:26] (30_encoding.md R301). -/
def opField (w : Word) : BitVec 6 := w.extractLsb' 26 6

/-- The 4-bit field whose lowest bit is `lo`. -/
def regField (w : Word) (lo : Nat) : Fin 16 := (w.extractLsb' lo 4).toFin

/-- The operand fields (30_encoding.md R301). -/
def fieldsOf (w : Word) : Fields :=
  { rd := regField w 22, rs1 := regField w 18, rs2 := regField w 14, rd2 := regField w 10 }

/-- The rows of the limb-store and arithmetic commands (30_encoding.md R310). -/
def opcodeRowsLow : List OpRow := [
  ⟨0x00#6, .n,    fun _ => .nop⟩,
  ⟨0x01#6, .d,    fun f => .zero f.rd⟩,
  ⟨0x02#6, .ds,   fun f => .mov f.rd f.rs1⟩,
  ⟨0x03#6, .d,    fun f => .ldi32 f.rd⟩,
  ⟨0x04#6, .d,    fun f => .ldi64 f.rd⟩,
  ⟨0x05#6, .si,   fun f => .limbrd f.rs1 f.rs2⟩,
  ⟨0x06#6, .di,   fun f => .limbwr f.rd f.rs2⟩,
  ⟨0x08#6, .dss,  fun f => .add f.rd f.rs1 f.rs2⟩,
  ⟨0x09#6, .dss,  fun f => .sub f.rd f.rs1 f.rs2⟩,
  ⟨0x0A#6, .dss,  fun f => .mul f.rd f.rs1 f.rs2⟩,
  ⟨0x0B#6, .dss,  fun f => .div f.rd f.rs1 f.rs2⟩,
  ⟨0x0C#6, .dss,  fun f => .mod f.rd f.rs1 f.rs2⟩,
  ⟨0x0D#6, .ddss, fun f => .divmod f.rd f.rd2 f.rs1 f.rs2⟩]

/-- The rows of the bitwise and shift commands (30_encoding.md R310). -/
def opcodeRowsMid : List OpRow := [
  ⟨0x10#6, .dss,  fun f => .and f.rd f.rs1 f.rs2⟩,
  ⟨0x11#6, .dss,  fun f => .or f.rd f.rs1 f.rs2⟩,
  ⟨0x12#6, .dss,  fun f => .xor f.rd f.rs1 f.rs2⟩,
  ⟨0x13#6, .ds,   fun f => .not f.rd f.rs1⟩,
  ⟨0x14#6, .ds,   fun f => .shl f.rd f.rs1⟩,
  ⟨0x15#6, .ds,   fun f => .shr f.rd f.rs1⟩,
  ⟨0x16#6, .dss,  fun f => .shlv f.rd f.rs1 f.rs2⟩,
  ⟨0x17#6, .dss,  fun f => .shrv f.rd f.rs1 f.rs2⟩]

/-- The rows of the comparisons, the text commands and the conversions (30_encoding.md R310). -/
def opcodeRowsHigh : List OpRow := [
  ⟨0x18#6, .ss,   fun f => .cmpeq f.rs1 f.rs2⟩,
  ⟨0x19#6, .ss,   fun f => .cmplt f.rs1 f.rs2⟩,
  ⟨0x1A#6, .ss,   fun f => .cmple f.rs1 f.rs2⟩,
  ⟨0x1B#6, .ss,   fun f => .cmpgt f.rs1 f.rs2⟩,
  ⟨0x1C#6, .ss,   fun f => .cmpge f.rs1 f.rs2⟩,
  ⟨0x20#6, .d,    fun f => .hexparse f.rd⟩,
  ⟨0x21#6, .s,    fun f => .hexfmt f.rs1⟩,
  ⟨0x24#6, .s,    fun f => .trunc32 f.rs1⟩,
  ⟨0x25#6, .s,    fun f => .trunc64 f.rs1⟩,
  ⟨0x26#6, .s,    fun f => .tzcnt f.rs1⟩,
  ⟨0x27#6, .s,    fun f => .hash f.rs1⟩]

/-- The opcode map (30_encoding.md R310). -/
def opcodeTable : List OpRow := opcodeRowsLow ++ opcodeRowsMid ++ opcodeRowsHigh

/-- The row of an opcode, if it is assigned. -/
def opcodeRow (op : BitVec 6) : Option OpRow := opcodeTable.find? (fun row => row.op == op)

/-- The match value of an opcode: the opcode in bits [31:26] and zeros below (30_encoding.md R302). -/
def opMatch (op : BitVec 6) : Word := op.zeroExtend 32 <<< 26

/-- The decoding procedure (30_encoding.md R313), with the name of the case of R311 where the word is illegal. -/
def decode (w : Word) : Except Illegal Instr :=
  match opcodeRow (opField w) with
  | none => .error .unassignedOpcode
  | some row =>
    if w &&& row.fmt.mask = opMatch (opField w) then
      let i := row.build (fieldsOf w)
      if i.wf then .ok i else .error .divmodSameDest
    else .error .reservedBits

/-- Put the fields of a command word together; reserved[9:0] is 0 (30_encoding.md R301, R333). -/
def pack (op : BitVec 6) (rd rs1 rs2 rd2 : Fin 16) : Word :=
  op ++ BitVec.ofFin (w := 4) rd ++ BitVec.ofFin (w := 4) rs1 ++ BitVec.ofFin (w := 4) rs2
    ++ BitVec.ofFin (w := 4) rd2 ++ 0#10

/-- The command word of an instruction (30_encoding.md R333): the opcode of R310, and 0 in every field the format does
not use. -/
def encode : Instr → Word
  | .nop                   => pack 0x00#6 0 0 0 0
  | .zero rd               => pack 0x01#6 rd 0 0 0
  | .mov rd rs1            => pack 0x02#6 rd rs1 0 0
  | .ldi32 rd              => pack 0x03#6 rd 0 0 0
  | .ldi64 rd              => pack 0x04#6 rd 0 0 0
  | .limbrd rs1 idx        => pack 0x05#6 0 rs1 idx 0
  | .limbwr rd idx         => pack 0x06#6 rd 0 idx 0
  | .add rd rs1 rs2        => pack 0x08#6 rd rs1 rs2 0
  | .sub rd rs1 rs2        => pack 0x09#6 rd rs1 rs2 0
  | .mul rd rs1 rs2        => pack 0x0A#6 rd rs1 rs2 0
  | .div rd rs1 rs2        => pack 0x0B#6 rd rs1 rs2 0
  | .mod rd rs1 rs2        => pack 0x0C#6 rd rs1 rs2 0
  | .divmod rd rd2 rs1 rs2 => pack 0x0D#6 rd rs1 rs2 rd2
  | .and rd rs1 rs2        => pack 0x10#6 rd rs1 rs2 0
  | .or rd rs1 rs2         => pack 0x11#6 rd rs1 rs2 0
  | .xor rd rs1 rs2        => pack 0x12#6 rd rs1 rs2 0
  | .not rd rs1            => pack 0x13#6 rd rs1 0 0
  | .shl rd rs1            => pack 0x14#6 rd rs1 0 0
  | .shr rd rs1            => pack 0x15#6 rd rs1 0 0
  | .shlv rd rs1 rs2       => pack 0x16#6 rd rs1 rs2 0
  | .shrv rd rs1 rs2       => pack 0x17#6 rd rs1 rs2 0
  | .cmpeq rs1 rs2         => pack 0x18#6 0 rs1 rs2 0
  | .cmplt rs1 rs2         => pack 0x19#6 0 rs1 rs2 0
  | .cmple rs1 rs2         => pack 0x1A#6 0 rs1 rs2 0
  | .cmpgt rs1 rs2         => pack 0x1B#6 0 rs1 rs2 0
  | .cmpge rs1 rs2         => pack 0x1C#6 0 rs1 rs2 0
  | .hexparse rd           => pack 0x20#6 rd 0 0 0
  | .hexfmt rs1            => pack 0x21#6 0 rs1 0 0
  | .trunc32 rs1           => pack 0x24#6 0 rs1 0 0
  | .trunc64 rs1           => pack 0x25#6 0 rs1 0 0
  | .tzcnt rs1             => pack 0x26#6 0 rs1 0 0
  | .hash rs1              => pack 0x27#6 0 rs1 0 0

/-- The format of an instruction (30_encoding.md R310). -/
def Instr.format : Instr → Format
  | .nop => .n
  | .zero _ => .d
  | .mov _ _ => .ds
  | .ldi32 _ => .d
  | .ldi64 _ => .d
  | .limbrd _ _ => .si
  | .limbwr _ _ => .di
  | .add _ _ _ => .dss
  | .sub _ _ _ => .dss
  | .mul _ _ _ => .dss
  | .div _ _ _ => .dss
  | .mod _ _ _ => .dss
  | .divmod _ _ _ _ => .ddss
  | .and _ _ _ => .dss
  | .or _ _ _ => .dss
  | .xor _ _ _ => .dss
  | .not _ _ => .ds
  | .shl _ _ => .ds
  | .shr _ _ => .ds
  | .shlv _ _ _ => .dss
  | .shrv _ _ _ => .dss
  | .cmpeq _ _ => .ss
  | .cmplt _ _ => .ss
  | .cmple _ _ => .ss
  | .cmpgt _ _ => .ss
  | .cmpge _ _ => .ss
  | .hexparse _ => .d
  | .hexfmt _ => .s
  | .trunc32 _ => .s
  | .trunc64 _ => .s
  | .tzcnt _ => .s
  | .hash _ => .s

/-- The instruction the decoder reads from the table's bits `w`. Every command is one 32-bit word and the table numbers
its bits as the spec does, so the word is `w` itself, with zeros above `nbits`. -/
def decodeTableWord (nbits w : Nat) : Option Instr :=
  (decode (BitVec.ofNat 32 (w % 2 ^ nbits))).toOption

end Sys2Proof
end

