-- ==== Sys2Proof/Config.lean ====
section
/-! DEFINITION. The implementation parameters (spec 00_scope.md R6, R7). The two the spec leaves OPEN, HASHFN and
WINDOW_BASE, are constants with no body: a claim is true whatever they are. -/

namespace Sys2Proof.Config

/-- HASHFN, the hash of the eight limbs, limb 0 first (00_scope.md R7, 46_convert_hash.md R1003, decision D20).
The spec leaves it OPEN: a fixed total function of the limbs alone. Log entry 5. -/
opaque hashFn : Vector Limb 8 → Scalar

/-- WINDOW_BASE, the host's address of window offset 0 (20_memory.md R201, decision D6). The spec leaves it OPEN,
its width too. Log entry 6. -/
opaque windowBase : Nat

/-- The value of the ID register (10_state.md R112). -/
def idValue : Word := 0x55323536#32

/-- A shift amount must be below this (00_scope.md R6, 43_shift.md R700). -/
def shiftLimit : Nat := 2 ^ 32

/-- The most characters a hexadecimal text may have (00_scope.md R6, 45_hex.md R901). -/
def maxHexChars : Nat := 64

end Sys2Proof.Config
end

