-- ==== Sys2Proof/Machine/State.lean ====
section
/-! DEFINITION. The state of one U256CORE instance (spec 10_state.md R100, which says the list is exact), the bus port
through which the host reaches it (20_memory.md R214), and the state after reset (70_reset_and_hazards.md R1201). -/

namespace Sys2Proof.Machine

/-- STATUS (10_state.md R110), the fields that hold something. Bits [3:1] and [31:16] always read 0, so they have no
storage; the window read puts them in (20_memory.md R204). -/
structure Status where
  /-- Bit [0]: 1 after a fault. -/
  err   : Bool
  /-- Bits [7:4]: the cause code (60_exceptions.md R1102). -/
  cause : BitVec 4
  /-- Bits [15:8]: cause-specific information (60_exceptions.md R1103). -/
  finfo : Byte
  deriving DecidableEq, Repr

/-- What the outside world does to the block: the two kinds of bus request (20_memory.md R214) and an assertion of the
reset input `rst` (70_reset_and_hazards.md R1200). -/
inductive Input where
  /-- WinRead(offset). -/
  | read (offset : BitVec 8)
  /-- WinWrite(offset, wdata). -/
  | write (offset : BitVec 8) (wdata : Word)
  /-- `rst` is asserted. -/
  | rst
  deriving DecidableEq, Repr

/-- What the block answers to a bus request (20_memory.md R214). -/
inductive Response where
  /-- The response to a read carries rdata. -/
  | rdata (w : Word)
  /-- The response to a write carries only completion. -/
  | completion
  deriving DecidableEq, Repr

@[ext]
structure State where
  /-- v0..v15 (10_state.md R101). -/
  v        : Vector Value 16
  /-- SR (R106). -/
  sr       : Scalar
  /-- DATA (R107). -/
  data     : Scalar
  /-- HEXBUF, HB[0] first (R108). -/
  hexbuf   : Vector Byte 64
  /-- HEXLEN (R109). -/
  hexlen   : Byte
  /-- STATUS (R110). -/
  status   : Status
  /-- FCMD (R111). -/
  fcmd     : Word
  /-- CCNT (R113). -/
  ccnt     : Word
  /-- The inputs still to come, oldest first: the request side of the port (20_memory.md R210, R214).
  The model's own field. DESIGN CHOICE, log entry 1. -/
  inputs   : List Input
  /-- The response to the last bus request, if any: the response side of the port (20_memory.md R214).
  The model's own field. DESIGN CHOICE, log entry 2. -/
  response : Option Response
  deriving DecidableEq, Repr

/-- The state after reset (70_reset_and_hazards.md R1201): every element 0. No input has come yet and no response has
been given. -/
def State.reset : State :=
  { v := Vector.replicate 16 0#256, sr := 0#64, data := 0#64, hexbuf := Vector.replicate 64 0#8, hexlen := 0#8,
    status := { err := false, cause := 0#4, finfo := 0#8 }, fcmd := 0#32, ccnt := 0#32, inputs := [], response := none }

/-- The reasons a step could stop with a fault. There are none, and this is exact, so neither safe nor unsafe: a fault
of U256CORE is a recorded state the machine goes on from (60_exceptions.md R1104, R1105), which the model takes as a
next state, and a host access never faults (R1107). Log entry 4. -/
inductive Fault where
  deriving DecidableEq, Repr

/-- The reasons a step could be refused. -/
inductive Refusal where
  /-- Raised by an arm of `exec` whose instruction has no meaning yet. Safe: the run stops. No arm raises it now. -/
  | notModelled (mnemonic : String)
  deriving DecidableEq, Repr

/-- The outcome of a command or of a step. -/
abbrev Result := Host.Outcome State Fault Refusal

end Sys2Proof.Machine
end

