-- ==== Sys2Proof/Machine/Flags.lean ====
section
/-! DEFINITION. U256CORE has no condition flags (10_state.md R105). What its status register holds is the record of a
fault: this file gives the cause codes and the word a read of STATUS returns. -/

namespace Sys2Proof.Machine

/-- The causes of a fault (60_exceptions.md R1102). -/
inductive Cause where
  | illegalInstr
  | divByZero
  | shiftRange
  | limbIndex
  | hexEmpty
  | hexTooLong
  | hexOddLength
  | hexBadChar
  deriving DecidableEq, Repr

/-- The 4-bit code of a cause (60_exceptions.md R1102). Code 0 is "none" and 9 to 15 are never produced. -/
def Cause.code : Cause → BitVec 4
  | .illegalInstr => 0x1#4
  | .divByZero    => 0x2#4
  | .shiftRange   => 0x3#4
  | .limbIndex    => 0x4#4
  | .hexEmpty     => 0x5#4
  | .hexTooLong   => 0x6#4
  | .hexOddLength => 0x7#4
  | .hexBadChar   => 0x8#4

/-- What a read of STATUS returns: zext_32(FINFO : CAUSE : 0b000 : ERR) (20_memory.md R204, 10_state.md R110). -/
def statusWord (st : Status) : Word :=
  (st.finfo ++ st.cause ++ 0b000#3 ++ BitVec.ofBool st.err).zeroExtend 32

end Sys2Proof.Machine
end

