-- ==== Sys2Proof/Machine/Operands.lean ====
section
/-! DEFINITION. What the commands compute on values, scalars and text: the limb view (00_scope.md R10), the limb loops of
the arithmetic, bitwise and ordering rules (41_arithmetic.md, 42_bitwise.md, 44_ordering.md), the shifts (43_shift.md), the
hexadecimal text (45_hex.md) and the trailing-zero count (46_convert_hash.md). None of these touches State. -/

namespace Sys2Proof.Machine

/-! ### Limbs -/

/-- limb(x, k) = x[255-32k : 224-32k] (00_scope.md R10). -/
def limb (x : Value) (k : Fin 8) : Limb := x.extractLsb' (224 - 32 * k.val) 32

/-- The eight limbs of a value, limb 0 (the most significant) first (10_state.md R101). -/
def limbs (x : Value) : List Limb :=
  [limb x 0, limb x 1, limb x 2, limb x 3, limb x 4, limb x 5, limb x 6, limb x 7]

/-- limbs(l0, ..., l7): the value Σ l_k · 2^(32·(7−k)) (00_scope.md R10). -/
def ofLimbs (ls : List Limb) : Value := BitVec.ofNat 256 (ls.foldl (fun n l => n * 2 ^ 32 + l.toNat) 0)

/-- Write one limb and leave the other seven (00_scope.md R11). -/
def setLimb (x : Value) (k : Fin 8) (y : Limb) : Value := ofLimbs ((limbs x).set k.val y)

/-- limb(x, j), and 0 for j outside [0,7] (43_shift.md R705). -/
def limbOrZero (x : Value) (j : Int) : Nat :=
  if h : 0 ≤ j ∧ j < 8 then (limb x ⟨j.toNat, by omega⟩).toNat else 0

/-! ### Arithmetic -/

/-- One turn of ADD's loop (41_arithmetic.md R500): the 33-bit sum of two limbs and the carry gives a limb and a carry. -/
def addLimbStep (ab : Limb × Limb) (acc : List Limb × BitVec 1) : List Limb × BitVec 1 :=
  let s : BitVec 33 := ab.1.zeroExtend 33 + ab.2.zeroExtend 33 + acc.2.zeroExtend 33
  (s.extractLsb' 0 32 :: acc.1, s.extractLsb' 32 1)

/-- ADD's loop from the least to the most significant limb; the last carry is discarded (41_arithmetic.md R500). -/
def addValue (a b : Value) : Value :=
  ofLimbs (((limbs a).zip (limbs b)).foldr addLimbStep ([], 0#1)).1

/-- One turn of SUB's loop (41_arithmetic.md R501): the difference d is an integer; a negative d borrows 2^32. -/
def subLimbStep (ab : Limb × Limb) (acc : List Limb × Int) : List Limb × Int :=
  let d : Int := ab.1.toNat - ab.2.toNat - acc.2
  if d < 0 then (BitVec.ofInt 32 (d + 2 ^ 32) :: acc.1, 1) else (BitVec.ofInt 32 d :: acc.1, 0)

/-- SUB's loop from the least to the most significant limb; the last borrow is discarded (41_arithmetic.md R501). -/
def subValue (a b : Value) : Value :=
  ofLimbs (((limbs a).zip (limbs b)).foldr subLimbStep ([], 0)).1

/-- MUL: the exact product p and its low 256 bits p[255:0], which is p mod 2^256 (41_arithmetic.md R502). -/
def mulValue (a b : Value) : Value := BitVec.ofNat 256 (a.toNat * b.toNat)

/-- floor(a / b), for a non-zero b (41_arithmetic.md R503). -/
def quotient (a b : Value) : Value := BitVec.ofNat 256 (a.toNat / b.toNat)

/-- a - floor(a / b) * b, for a non-zero b (41_arithmetic.md R504). -/
def remainder (a b : Value) : Value := BitVec.ofNat 256 (a.toNat - a.toNat / b.toNat * b.toNat)

/-! ### Bitwise logic -/

/-- A limb-wise operation on two values, with no interaction between limbs (42_bitwise.md R600 to R602). -/
def limbwise (f : Limb → Limb → Limb) (a b : Value) : Value := ofLimbs (List.zipWith f (limbs a) (limbs b))

/-- The limb-wise one's complement (42_bitwise.md R603). -/
def complementValue (a : Value) : Value := ofLimbs ((limbs a).map (fun l => l ^^^ 0xFFFFFFFF#32))

/-! ### Shifts -/

/-- (x * 2^n) mod 2^256, which is 0 when n >= 256 (43_shift.md R701, R703). -/
def shiftLeft (x : Value) (n : Nat) : Value := if 256 ≤ n then 0#256 else BitVec.ofNat 256 (x.toNat * 2 ^ n)

/-- floor(x / 2^n), which is 0 when n >= 256 (43_shift.md R702, R704). -/
def shiftRight (x : Value) (n : Nat) : Value := if 256 ≤ n then 0#256 else BitVec.ofNat 256 (x.toNat / 2 ^ n)

/-- The limb-level left shift of 43_shift.md R705, n = 32q + s; no command calls it. -/
def shiftLeftLimbs (x : Value) (n : Nat) : Value :=
  let q := n / 32
  let s := n % 32
  ofLimbs ((List.range 8).map fun k =>
    BitVec.ofNat 32 (limbOrZero x (k + q) * 2 ^ s + limbOrZero x (k + q + 1) / 2 ^ (32 - s)))

/-- The limb-level right shift of 43_shift.md R705, n = 32q + s; no command calls it. -/
def shiftRightLimbs (x : Value) (n : Nat) : Value :=
  let q := n / 32
  let s := n % 32
  ofLimbs ((List.range 8).map fun (k : Nat) =>
    BitVec.ofNat 32 (limbOrZero x ((k : Int) - q) / 2 ^ s + limbOrZero x ((k : Int) - q - 1) * 2 ^ (32 - s) % 2 ^ 32))

/-! ### Ordering -/

/-- eq(a, b): all limbs are pairwise equal (44_ordering.md R800). -/
def eqLimbs : List Limb → List Limb → Bool
  | [], [] => true
  | a :: as, b :: bs => a == b && eqLimbs as bs
  | [], _ :: _ => false
  | _ :: _, [] => false

/-- lt(a, b): the first unequal pair decides, most significant limb first; all limbs equal is not less (44_ordering.md R800). -/
def ltLimbs : List Limb → List Limb → Bool
  | a :: as, b :: bs => if a = b then ltLimbs as bs else decide (a.toNat < b.toNat)
  | [], _ => false
  | _ :: _, [] => false

/-- eq of two values (44_ordering.md R800). -/
def eqValue (a b : Value) : Bool := eqLimbs (limbs a) (limbs b)

/-- lt of two values (44_ordering.md R800). -/
def ltValue (a b : Value) : Bool := ltLimbs (limbs a) (limbs b)

/-- A truth value as SR shows it: 1 when it holds, 0 when not (44_ordering.md, decision D24). -/
def truthScalar (b : Bool) : Scalar := if b then 1#64 else 0#64

/-! ### Scalar operands -/

/-- DATA[31:0] (30_encoding.md R305). -/
def scalarLow (d : Scalar) : Word := d.extractLsb' 0 32

/-- DATA[63:32] (20_memory.md R204). -/
def scalarHigh (d : Scalar) : Word := d.extractLsb' 32 32

/-! ### Hexadecimal text -/

/-- The value of a hexadecimal digit's character, none for every other byte (45_hex.md R900). -/
def hexDigit? (c : Byte) : Option Nibble :=
  if 0x30 ≤ c.toNat ∧ c.toNat ≤ 0x39 then some (BitVec.ofNat 4 (c.toNat - 0x30))
  else if 0x41 ≤ c.toNat ∧ c.toNat ≤ 0x46 then some (BitVec.ofNat 4 (c.toNat - 0x41 + 10))
  else if 0x61 ≤ c.toNat ∧ c.toNat ≤ 0x66 then some (BitVec.ofNat 4 (c.toNat - 0x61 + 10))
  else none

/-- hexchar(d): the lowercase digit of a value (45_hex.md R900). -/
def hexChar (d : Nibble) : Byte :=
  if d.toNat ≤ 9 then BitVec.ofNat 8 (0x30 + d.toNat) else BitVec.ofNat 8 (0x61 + (d.toNat - 10))

/-- Read a text's digits from position `i` on: their values, or the position of the first character that is no digit
(45_hex.md R901, "lowest bad index"). -/
def scanDigits : List Byte → Nat → Except Nat (List Nibble)
  | [], _ => .ok []
  | c :: cs, i =>
    match hexDigit? c with
    | none => .error i
    | some d =>
      match scanDigits cs (i + 1) with
      | .ok ds => .ok (d :: ds)
      | .error j => .error j

/-- Fold digits in from the most significant: acc * 16 + nib, on 256 bits (45_hex.md R902). -/
def foldDigits (ds : List Nibble) : Value := ds.foldl (fun acc d => acc * 16#256 + d.zeroExtend 256) 0#256

/-- The value of a valid text: its digits left-padded with '0' to 64, folded (45_hex.md R902). -/
def parseDigits (ds : List Nibble) : Value := foldDigits (List.replicate (64 - ds.length) 0#4 ++ ds)

/-- The 64 characters of a value: HB[i] is the digit of x[255-4i : 252-4i] (45_hex.md R903). -/
def formatValue (x : Value) : Vector Byte 64 :=
  Vector.ofFn fun i : Fin 64 => hexChar (x.extractLsb' (252 - 4 * i.val) 4)

/-! ### Trailing zeros -/

/-- min { i in 0..255 : x[i] = 1 }, and 256 for 0 (46_convert_hash.md R1002). -/
def trailingZeros (x : Value) : Nat :=
  match (List.range 256).find? (fun i => x.getLsbD i) with
  | some i => i
  | none => 256

end Sys2Proof.Machine
end

