-- ==== Sys2Proof/Machine/Ops.lean ====
section
/-! DEFINITION. The named operations over State: reading and writing registers (00_scope.md R11), completing a command
(30_encoding.md R320), taking a fault (60_exceptions.md R1104) and the reset that is the only way out of the fault state
(70_reset_and_hazards.md R1200, 60_exceptions.md R1106). -/

namespace Sys2Proof.Machine

/-! ### Registers -/

/-- v[r] (00_scope.md R11). None is hard-wired (10_state.md R101). -/
def State.readV (s : State) (r : VReg) : Value := s.v[r]

/-- v[r] <- x (00_scope.md R11). -/
def State.writeV (s : State) (r : VReg) (x : Value) : State := { s with v := s.v.set r x }

/-- SR <- x; all 64 bits are written (10_state.md R106). -/
def State.writeSR (s : State) (x : Scalar) : State := { s with sr := x }

/-- HB[0..63] <- the characters and HEXLEN <- n (45_hex.md R903). -/
def State.writeText (s : State) (hb : Vector Byte 64) (n : Byte) : State := { s with hexbuf := hb, hexlen := n }

/-- HB[0..HEXLEN-1], for a HEXLEN up to 64 (10_state.md R108). -/
def State.text (s : State) : List Byte := s.hexbuf.toList.take s.hexlen.toNat

/-! ### The end of a command -/

/-- CCNT <- (CCNT + 1) mod 2^32 (10_state.md R113). -/
def State.countCommand (s : State) : State := { s with ccnt := s.ccnt + 1#32 }

/-- A command that completes without fault: its writes are committed and CCNT counts it (30_encoding.md R320). -/
def complete (s : State) : Result := .next s.countCommand

/-! ### Taking a fault and leaving the fault state -/

/-- Fault entry: ERR, CAUSE, FINFO and FCMD are written and nothing else (60_exceptions.md R1104). `w` is the command word. -/
def faultEntry (c : Cause) (info : Byte) (w : Word) (s : State) : State :=
  { s with status := { err := true, cause := c.code, finfo := info }, fcmd := w }

/-- `raise Fault(c, info)` in the rule of instruction `i` (00_scope.md R13). The word FCMD records is the instruction's own,
the only one that decodes to it (log entry 7). -/
def raise (i : Instr) (c : Cause) (info : Byte) (s : State) : Result := .next (faultEntry c info (encode i) s)

/-- The reset of the block: every element takes its reset value (70_reset_and_hazards.md R1201). The inputs still to come
and the last response are not the block's and stay (log entry 9). -/
def resetBlock (s : State) : State := { State.reset with inputs := s.inputs, response := s.response }

/-! ### Checks that may raise a fault -/

/-- What a failed check reports: the cause and FINFO (60_exceptions.md R1103). -/
structure Violation where
  cause : Cause
  info  : Byte
  deriving DecidableEq, Repr

/-- The check of a text, in its order, giving the digits of a valid one (45_hex.md R901). -/
def checkText (s : State) : Except Violation (List Nibble) :=
  let n := s.hexlen
  if n = 0#8 then .error ⟨.hexEmpty, 0#8⟩
  else if n.toNat > Config.maxHexChars then .error ⟨.hexTooLong, n⟩
  else if n.toNat % 2 = 1 then .error ⟨.hexOddLength, n⟩
  else
    match scanDigits s.text 0 with
    | .ok ds => .ok ds
    | .error i => .error ⟨.hexBadChar, BitVec.ofNat 8 i⟩

/-- A shift amount is in range: representable in 32 bits (43_shift.md R700). -/
def shiftInRange (n : Nat) : Bool := decide (n < Config.shiftLimit)

/-- A shift command's common rule (43_shift.md R700 to R704): the check of the amount, then the write of the result. -/
def shiftCommand (i : Instr) (rd : VReg) (result : Value) (n : Nat) (s : State) : Result :=
  if shiftInRange n then complete (s.writeV rd result) else raise i .shiftRange 0#8 s

/-- A comparison's common rule: SR takes the truth value (44_ordering.md R801 to R805). -/
def compareCommand (holds : Bool) (s : State) : Result := complete (s.writeSR (truthScalar holds))

end Sys2Proof.Machine
end

