-- ==== Sys2Proof/Machine/Arithmetic.lean ====
section
/-! DEFINITION. The arithmetic commands (41_arithmetic.md): ADD, SUB, MUL, DIV, MOD, DIVMOD. -/

namespace Sys2Proof.Machine

/-- ADD (R500). -/
def execAdd (rd rs1 rs2 : VReg) (s : State) : Result := complete (s.writeV rd (addValue (s.readV rs1) (s.readV rs2)))

/-- SUB (R501): rs1 is the minuend. -/
def execSub (rd rs1 rs2 : VReg) (s : State) : Result := complete (s.writeV rd (subValue (s.readV rs1) (s.readV rs2)))

/-- MUL (R502). -/
def execMul (rd rs1 rs2 : VReg) (s : State) : Result := complete (s.writeV rd (mulValue (s.readV rs1) (s.readV rs2)))

/-- DIV (R503): DIV_BY_ZERO when v[rs2] = 0. -/
def execDiv (rd rs1 rs2 : VReg) (s : State) : Result :=
  let a := s.readV rs1
  let b := s.readV rs2
  if b = 0#256 then raise (.div rd rs1 rs2) .divByZero 0#8 s else complete (s.writeV rd (quotient a b))

/-- MOD (R504): DIV_BY_ZERO when v[rs2] = 0. -/
def execMod (rd rs1 rs2 : VReg) (s : State) : Result :=
  let a := s.readV rs1
  let b := s.readV rs2
  if b = 0#256 then raise (.mod rd rs1 rs2) .divByZero 0#8 s else complete (s.writeV rd (remainder a b))

/-- DIVMOD (R505): quotient to rd and remainder to rd2, both sources read first; DIV_BY_ZERO writes neither. -/
def execDivmod (rd rd2 rs1 rs2 : VReg) (s : State) : Result :=
  let a := s.readV rs1
  let b := s.readV rs2
  if b = 0#256 then raise (.divmod rd rd2 rs1 rs2) .divByZero 0#8 s
  else complete ((s.writeV rd (quotient a b)).writeV rd2 (remainder a b))

end Sys2Proof.Machine
end

