-- ==== Sys2Proof/Machine/Bitwise.lean ====
section
/-! DEFINITION. The bitwise commands (42_bitwise.md): AND, OR, XOR, NOT, limb by limb. -/

namespace Sys2Proof.Machine

/-- AND (R600). -/
def execAnd (rd rs1 rs2 : VReg) (s : State) : Result :=
  complete (s.writeV rd (limbwise (fun a b => a &&& b) (s.readV rs1) (s.readV rs2)))

/-- OR (R601). -/
def execOr (rd rs1 rs2 : VReg) (s : State) : Result :=
  complete (s.writeV rd (limbwise (fun a b => a ||| b) (s.readV rs1) (s.readV rs2)))

/-- XOR (R602). -/
def execXor (rd rs1 rs2 : VReg) (s : State) : Result :=
  complete (s.writeV rd (limbwise (fun a b => a ^^^ b) (s.readV rs1) (s.readV rs2)))

/-- NOT (R603). -/
def execNot (rd rs1 : VReg) (s : State) : Result := complete (s.writeV rd (complementValue (s.readV rs1)))

end Sys2Proof.Machine
end

