-- ==== Sys2Proof/Machine/Convert.lean ====
section
/-! DEFINITION. Narrowing, trailing-zero count and hash (46_convert_hash.md): TRUNC32, TRUNC64, TZCNT, HASH. Each reads one
value register and writes SR. -/

namespace Sys2Proof.Machine

/-- TRUNC32 (R1000): limb 7, zero-extended. -/
def execTrunc32 (rs1 : VReg) (s : State) : Result := complete (s.writeSR ((limb (s.readV rs1) 7).zeroExtend 64))

/-- TRUNC64 (R1001): limb 6 : limb 7. -/
def execTrunc64 (rs1 : VReg) (s : State) : Result :=
  complete (s.writeSR (limb (s.readV rs1) 6 ++ limb (s.readV rs1) 7))

/-- TZCNT (R1002). -/
def execTzcnt (rs1 : VReg) (s : State) : Result :=
  complete (s.writeSR (BitVec.ofNat 64 (trailingZeros (s.readV rs1))))

/-- HASH (R1003): HASHFN of the eight limbs, limb 0 first. HASHFN is a parameter with no known value (log entry 5). -/
def execHash (rs1 : VReg) (s : State) : Result :=
  let x := s.readV rs1
  complete (s.writeSR (Config.hashFn
    #v[limb x 0, limb x 1, limb x 2, limb x 3, limb x 4, limb x 5, limb x 6, limb x 7]))

end Sys2Proof.Machine
end

