-- ==== Sys2Proof/Machine/Hex.lean ====
section
/-! DEFINITION. The hexadecimal text commands (45_hex.md): HEXPARSE, HEXFMT. -/

namespace Sys2Proof.Machine

/-- HEXPARSE (R902): the check of R901, then the fold; it writes neither HEXBUF nor HEXLEN. -/
def execHexparse (rd : VReg) (s : State) : Result :=
  match checkText s with
  | .ok ds => complete (s.writeV rd (parseDigits ds))
  | .error e => raise (.hexparse rd) e.cause e.info s

/-- HEXFMT (R903): HB[0..63] and HEXLEN = 64; no value register and not SR. -/
def execHexfmt (rs1 : VReg) (s : State) : Result := complete (s.writeText (formatValue (s.readV rs1)) 64#8)

end Sys2Proof.Machine
end

