-- ==== Sys2Proof/Machine/LimbStore.lean ====
section
/-! DEFINITION. The limb-store commands (40_limb_store.md): NOP, ZERO, MOV, LDI32, LDI64, LIMBRD, LIMBWR. -/

namespace Sys2Proof.Machine

/-- NOP (R400). -/
def execNop (s : State) : Result := complete s

/-- ZERO (R401). -/
def execZero (rd : VReg) (s : State) : Result := complete (s.writeV rd 0#256)

/-- MOV (R402). -/
def execMov (rd rs1 : VReg) (s : State) : Result := complete (s.writeV rd (s.readV rs1))

/-- LDI32 (R403): DATA[63:32] is ignored. -/
def execLdi32 (rd : VReg) (s : State) : Result := complete (s.writeV rd ((scalarLow s.data).zeroExtend 256))

/-- LDI64 (R404). -/
def execLdi64 (rd : VReg) (s : State) : Result := complete (s.writeV rd (s.data.zeroExtend 256))

/-- LIMBRD (R405): LIMB_INDEX with FINFO = zext_8(idx) when idx > 7. -/
def execLimbrd (rs1 : VReg) (idx : LimbIdx) (s : State) : Result :=
  if h : idx.val < 8 then complete (s.writeSR ((limb (s.readV rs1) ⟨idx.val, h⟩).zeroExtend 64))
  else raise (.limbrd rs1 idx) .limbIndex (BitVec.ofNat 8 idx.val) s

/-- LIMBWR (R406): the other seven limbs keep their values; LIMB_INDEX with FINFO = zext_8(idx) when idx > 7. -/
def execLimbwr (rd : VReg) (idx : LimbIdx) (s : State) : Result :=
  if h : idx.val < 8 then complete (s.writeV rd (setLimb (s.readV rd) ⟨idx.val, h⟩ (scalarLow s.data)))
  else raise (.limbwr rd idx) .limbIndex (BitVec.ofNat 8 idx.val) s

end Sys2Proof.Machine
end

