-- ==== Sys2Proof/Machine/Ordering.lean ====
section
/-! DEFINITION. The comparisons (44_ordering.md): each writes 1 or 0 to SR, and none raises a fault. -/

namespace Sys2Proof.Machine

/-- CMPEQ (R801). -/
def execCmpeq (rs1 rs2 : VReg) (s : State) : Result := compareCommand (eqValue (s.readV rs1) (s.readV rs2)) s

/-- CMPLT (R802). -/
def execCmplt (rs1 rs2 : VReg) (s : State) : Result := compareCommand (ltValue (s.readV rs1) (s.readV rs2)) s

/-- CMPLE (R803): not lt(b, a). -/
def execCmple (rs1 rs2 : VReg) (s : State) : Result := compareCommand (!ltValue (s.readV rs2) (s.readV rs1)) s

/-- CMPGT (R804): lt(b, a). -/
def execCmpgt (rs1 rs2 : VReg) (s : State) : Result := compareCommand (ltValue (s.readV rs2) (s.readV rs1)) s

/-- CMPGE (R805): not lt(a, b). -/
def execCmpge (rs1 rs2 : VReg) (s : State) : Result := compareCommand (!ltValue (s.readV rs1) (s.readV rs2)) s

end Sys2Proof.Machine
end

