-- ==== Sys2Proof/Machine/Shift.lean ====
section
/-! DEFINITION. The shift commands (43_shift.md): SHL, SHR by DATA; SHLV, SHRV by a value register. -/

namespace Sys2Proof.Machine

/-- SHL (R701). -/
def execShl (rd rs1 : VReg) (s : State) : Result :=
  let n := s.data.toNat
  shiftCommand (.shl rd rs1) rd (shiftLeft (s.readV rs1) n) n s

/-- SHR (R702). -/
def execShr (rd rs1 : VReg) (s : State) : Result :=
  let n := s.data.toNat
  shiftCommand (.shr rd rs1) rd (shiftRight (s.readV rs1) n) n s

/-- SHLV (R703): the amount is the whole of v[rs2]. -/
def execShlv (rd rs1 rs2 : VReg) (s : State) : Result :=
  let n := (s.readV rs2).toNat
  shiftCommand (.shlv rd rs1 rs2) rd (shiftLeft (s.readV rs1) n) n s

/-- SHRV (R704): the amount is the whole of v[rs2]. -/
def execShrv (rd rs1 rs2 : VReg) (s : State) : Result :=
  let n := (s.readV rs2).toNat
  shiftCommand (.shrv rd rs1 rs2) rd (shiftRight (s.readV rs1) n) n s

end Sys2Proof.Machine
end

