-- ==== Sys2Proof/Machine/Dispatch.lean ====
section
/-! DEFINITION. The meaning of every command, one arm per constructor (30_encoding.md R310). -/

namespace Sys2Proof.Machine

/-- Perform the rule of a decoded command (30_encoding.md R320). The check of STATUS.ERR stands before decoding, in the
CMD write (Machine/Window.lean), as R320 has it. -/
def exec (i : Instr) (s : State) : Host.Outcome State Fault Refusal :=
  match i with
  | .nop => Sys2Proof.Machine.execNop s
  | .zero rd => Sys2Proof.Machine.execZero rd s
  | .mov rd rs1 => Sys2Proof.Machine.execMov rd rs1 s
  | .ldi32 rd => Sys2Proof.Machine.execLdi32 rd s
  | .ldi64 rd => Sys2Proof.Machine.execLdi64 rd s
  | .limbrd rs1 idx => Sys2Proof.Machine.execLimbrd rs1 idx s
  | .limbwr rd idx => Sys2Proof.Machine.execLimbwr rd idx s
  | .add rd rs1 rs2 => Sys2Proof.Machine.execAdd rd rs1 rs2 s
  | .sub rd rs1 rs2 => Sys2Proof.Machine.execSub rd rs1 rs2 s
  | .mul rd rs1 rs2 => Sys2Proof.Machine.execMul rd rs1 rs2 s
  | .div rd rs1 rs2 => Sys2Proof.Machine.execDiv rd rs1 rs2 s
  | .mod rd rs1 rs2 => Sys2Proof.Machine.execMod rd rs1 rs2 s
  | .divmod rd rd2 rs1 rs2 => Sys2Proof.Machine.execDivmod rd rd2 rs1 rs2 s
  | .and rd rs1 rs2 => Sys2Proof.Machine.execAnd rd rs1 rs2 s
  | .or rd rs1 rs2 => Sys2Proof.Machine.execOr rd rs1 rs2 s
  | .xor rd rs1 rs2 => Sys2Proof.Machine.execXor rd rs1 rs2 s
  | .not rd rs1 => Sys2Proof.Machine.execNot rd rs1 s
  | .shl rd rs1 => Sys2Proof.Machine.execShl rd rs1 s
  | .shr rd rs1 => Sys2Proof.Machine.execShr rd rs1 s
  | .shlv rd rs1 rs2 => Sys2Proof.Machine.execShlv rd rs1 rs2 s
  | .shrv rd rs1 rs2 => Sys2Proof.Machine.execShrv rd rs1 rs2 s
  | .cmpeq rs1 rs2 => Sys2Proof.Machine.execCmpeq rs1 rs2 s
  | .cmplt rs1 rs2 => Sys2Proof.Machine.execCmplt rs1 rs2 s
  | .cmple rs1 rs2 => Sys2Proof.Machine.execCmple rs1 rs2 s
  | .cmpgt rs1 rs2 => Sys2Proof.Machine.execCmpgt rs1 rs2 s
  | .cmpge rs1 rs2 => Sys2Proof.Machine.execCmpge rs1 rs2 s
  | .hexparse rd => Sys2Proof.Machine.execHexparse rd s
  | .hexfmt rs1 => Sys2Proof.Machine.execHexfmt rs1 s
  | .trunc32 rs1 => Sys2Proof.Machine.execTrunc32 rs1 s
  | .trunc64 rs1 => Sys2Proof.Machine.execTrunc64 rs1 s
  | .tzcnt rs1 => Sys2Proof.Machine.execTzcnt rs1 s
  | .hash rs1 => Sys2Proof.Machine.execHash rs1 s

end Sys2Proof.Machine
end

