-- ==== Sys2Proof/Machine/Window.lean ====
section
/-! DEFINITION. The host register window (20_memory.md R200 to R208): the map, the reads, the writes, and the CMD write
that runs a command (30_encoding.md R320). -/

namespace Sys2Proof.Machine

/-- The registers of the window map (20_memory.md R202). -/
inductive WinReg where
  | cmd
  | dataLo
  | dataHi
  | status
  | srLo
  | srHi
  | hexlen
  | ctrl
  | fcmd
  | ccnt
  | id
  | hexbuf (j : Fin 16)
  | reserved
  deriving DecidableEq, Repr

/-- An offset with bits [1:0] cleared: no access is misaligned (20_memory.md R203). -/
def wordOffset (off : BitVec 8) : BitVec 8 := off &&& 0xFC#8

/-- The register at an offset (20_memory.md R202). -/
def winReg (off : BitVec 8) : WinReg :=
  let o := (wordOffset off).toNat
  if o = 0x00 then .cmd
  else if o = 0x04 then .dataLo
  else if o = 0x08 then .dataHi
  else if o = 0x0C then .status
  else if o = 0x10 then .srLo
  else if o = 0x14 then .srHi
  else if o = 0x18 then .hexlen
  else if o = 0x1C then .ctrl
  else if o = 0x20 then .fcmd
  else if o = 0x24 then .ccnt
  else if o = 0x28 then .id
  else if h : 0x40 ≤ o ∧ o ≤ 0x7C then .hexbuf ⟨(o - 0x40) / 4, by omega⟩
  else .reserved

/-- HEXBUFj: HB[4j+3] : HB[4j+2] : HB[4j+1] : HB[4j] (20_memory.md R204, R207). -/
def hexWord (hb : Vector Byte 64) (j : Fin 16) : Word :=
  hb[4 * j.val + 3] ++ hb[4 * j.val + 2] ++ hb[4 * j.val + 1] ++ hb[4 * j.val]

/-- HB[4j] <- w[7:0], HB[4j+1] <- w[15:8], HB[4j+2] <- w[23:16], HB[4j+3] <- w[31:24] (20_memory.md R205). -/
def setHexWord (hb : Vector Byte 64) (j : Fin 16) (w : Word) : Vector Byte 64 :=
  (((hb.set (4 * j.val) (w.extractLsb' 0 8)).set (4 * j.val + 1) (w.extractLsb' 8 8)).set
    (4 * j.val + 2) (w.extractLsb' 16 8)).set (4 * j.val + 3) (w.extractLsb' 24 8)

/-- WinRead(off): the word read; no state changes (20_memory.md R204, R206). CMD and CTRL read 0 and ID is a constant
(10_state.md R112, R114, R115). -/
def winRead (off : BitVec 8) (s : State) : Word :=
  match winReg off with
  | .cmd => 0#32
  | .dataLo => scalarLow s.data
  | .dataHi => scalarHigh s.data
  | .status => statusWord s.status
  | .srLo => scalarLow s.sr
  | .srHi => scalarHigh s.sr
  | .hexlen => s.hexlen.zeroExtend 32
  | .ctrl => 0#32
  | .fcmd => s.fcmd
  | .ccnt => s.ccnt
  | .id => Config.idValue
  | .hexbuf j => hexWord s.hexbuf j
  | .reserved => 0#32

/-- A write of word `w` to CMD (30_encoding.md R320): ignored in the fault state (60_exceptions.md R1105), else decoded and
run; an illegal word takes ILLEGAL_INSTR before any other check (R311). -/
def runCommand (w : Word) (s : State) : Result :=
  if s.status.err then .next s
  else
    match decode w with
    | .error _ => .next (faultEntry .illegalInstr 0#8 w s)
    | .ok i => exec i s

/-- WinWrite(off, w) (20_memory.md R205, R206). -/
def winWrite (off : BitVec 8) (w : Word) (s : State) : Result :=
  match winReg off with
  | .cmd => runCommand w s
  | .dataLo => .next { s with data := scalarHigh s.data ++ w }
  | .dataHi => .next { s with data := w ++ scalarLow s.data }
  | .status => .next s
  | .srLo => .next s
  | .srHi => .next s
  | .hexlen => .next { s with hexlen := w.extractLsb' 0 8 }
  | .ctrl => if w.getLsbD 0 then .next (resetBlock s) else .next s
  | .fcmd => .next s
  | .ccnt => .next s
  | .id => .next s
  | .hexbuf j => .next { s with hexbuf := setHexWord s.hexbuf j w }
  | .reserved => .next s

/-- Serve one input to its end (20_memory.md R210, R214): a read answers its word, a write answers completion after its
whole effect, and `rst` resets the block and answers nothing (70_reset_and_hazards.md R1200). -/
def serve (x : Input) (s : State) : Result :=
  match x with
  | .read off => .next { s with response := some (.rdata (winRead off s)) }
  | .write off w =>
    match winWrite off w s with
    | .next t => .next { t with response := some .completion }
    | .fault f => .fault f
    | .refused r => .refused r
  | .rst => .next { resetBlock s with response := none }

/-- The host's address of a window offset (20_memory.md R201). -/
def hostAddress (off : BitVec 8) : Nat := Config.windowBase + off.toNat

/-- The 8-bit offset the block decodes from a host address, none outside the window (20_memory.md R200, R201). -/
def windowOffset (address : Nat) : Option (BitVec 8) :=
  if Config.windowBase ≤ address ∧ address < Config.windowBase + 256 then
    some (BitVec.ofNat 8 (address - Config.windowBase))
  else none

end Sys2Proof.Machine
end

