-- ==== Sys2Proof/Machine/Step.lean ====
section
/-! DEFINITION. One step of the block: the oldest input still to come is taken and served to its end (20_memory.md R210). -/

namespace Sys2Proof.Machine

/-- With an input to come, serve it. With none, the block waits for the host's next access and nothing changes
(70_reset_and_hazards.md R1202; log entry 3). -/
def step (s : State) : Host.Outcome State Fault Refusal :=
  match s.inputs with
  | [] => .next s
  | x :: rest => serve x { s with inputs := rest }

/-- The state with a write of the command word `w` to CMD as its next input: the block fetches nothing, and a command
exists only as the word of a CMD write (20_memory.md R212). Nothing else changes, so in the fault state the next step
ignores the command as 60_exceptions.md R1105 says. Log entry 8. -/
def State.withFetchWord (s : State) (nbits w : Nat) : State :=
  { s with inputs := .write 0x00#8 (BitVec.ofNat 32 (w % 2 ^ nbits)) :: s.inputs }

end Sys2Proof.Machine
end

