-- ==== Sys2Proof/Machine/Assembler.lean ====
section
/-! DEFINITION. The host's side of a command: the assembler syntax (30_encoding.md R330), the accesses a line stands for
(R331) and the pseudo-instructions (R332). No step of the machine calls any of it. -/

namespace Sys2Proof.Machine

/-! ### Window offsets a host writes or reads (20_memory.md R202) -/

def offCmd : BitVec 8 := 0x00#8
def offDataLo : BitVec 8 := 0x04#8
def offDataHi : BitVec 8 := 0x08#8
def offSrLo : BitVec 8 := 0x10#8
def offHexlen : BitVec 8 := 0x18#8
def offHexbuf (j : Fin 16) : BitVec 8 := BitVec.ofNat 8 (0x40 + 4 * j.val)

/-! ### Lines -/

/-- The width of a command's scalar operand, none where it has none (30_encoding.md R330, R331). -/
def scalarWidth : Instr → Option Nat
  | .ldi32 _ => some 32
  | .limbwr _ _ => some 32
  | .ldi64 _ => some 64
  | .shl _ _ => some 64
  | .shr _ _ => some 64
  | .nop => none
  | .zero _ => none
  | .mov _ _ => none
  | .limbrd _ _ => none
  | .add _ _ _ => none
  | .sub _ _ _ => none
  | .mul _ _ _ => none
  | .div _ _ _ => none
  | .mod _ _ _ => none
  | .divmod _ _ _ _ => none
  | .and _ _ _ => none
  | .or _ _ _ => none
  | .xor _ _ _ => none
  | .not _ _ => none
  | .shlv _ _ _ => none
  | .shrv _ _ _ => none
  | .cmpeq _ _ => none
  | .cmplt _ _ => none
  | .cmple _ _ => none
  | .cmpgt _ _ => none
  | .cmpge _ _ => none
  | .hexparse _ => none
  | .hexfmt _ => none
  | .trunc32 _ => none
  | .trunc64 _ => none
  | .tzcnt _ => none
  | .hash _ => none

/-- The write of a command word to CMD. -/
def issueWord (i : Instr) : Input := .write offCmd (encode i)

/-- The host accesses of one line, a command and its scalar operand if it has one; none is an assembler error
(30_encoding.md R331). No DATA write is left out. -/
def issue (i : Instr) (imm : Option Nat) : Option (List Input) :=
  match scalarWidth i, imm with
  | none, none => some [issueWord i]
  | some 32, some n =>
    if n < 2 ^ 32 then some [.write offDataLo (BitVec.ofNat 32 n), issueWord i] else none
  | some _, some n =>
    if n < 2 ^ 64 then
      some [.write offDataLo (BitVec.ofNat 32 n), .write offDataHi (BitVec.ofNat 32 (n / 2 ^ 32)), issueWord i]
    else none
  | none, some _ => none
  | some _, none => none

/-! ### Pseudo-instructions -/

/-- The pseudo-instructions (30_encoding.md R332). -/
inductive Pseudo where
  | ldi256 (rd : VReg) (imm : Value)
  | ldhex (rd : VReg) (text : List Byte)
  | rd256 (rs : VReg)
  | rdhex (rs : VReg)
  | clr (rd : VReg)
  | shlReg (rd rs rn : VReg)
  | shrReg (rd rs rn : VReg)
  deriving DecidableEq, Repr

/-- One limb of LDI256: its DATA write and its LIMBWR (30_encoding.md R331, R332). -/
def ldi256Limb (rd : VReg) (imm : Value) (k : Fin 8) : List Input :=
  [.write offDataLo (limb imm k), issueWord (.limbwr rd ⟨k.val, by omega⟩)]

/-- The HEXBUF word a host writes for characters 4j to 4j+3 of a text. Characters past the text's end are written as
0x00; HEXPARSE ignores them (45_hex.md R901). DESIGN CHOICE, log entry 14. -/
def textWord (text : List Byte) (j : Fin 16) : Word :=
  text.getD (4 * j.val + 3) 0#8 ++ text.getD (4 * j.val + 2) 0#8 ++ text.getD (4 * j.val + 1) 0#8
    ++ text.getD (4 * j.val) 0#8

/-- The HEXBUF writes of a text, the words that hold a character of it only. -/
def writeTextWords (text : List Byte) : List Input :=
  ((List.finRange 16).filter (fun j => decide (4 * j.val < text.length))).map
    (fun j => .write (offHexbuf j) (textWord text j))

/-- The host accesses of a pseudo-instruction; none is an assembler error (30_encoding.md R332: LDHEX takes a text of even
length 2 to 64). -/
def expand : Pseudo → Option (List Input)
  | .ldi256 rd imm => some ((List.finRange 8).flatMap (ldi256Limb rd imm))
  | .ldhex rd text =>
    if text.length % 2 = 0 ∧ 2 ≤ text.length ∧ text.length ≤ 64 then
      some (writeTextWords text ++
        [.write offHexlen (BitVec.ofNat 32 text.length), issueWord (.hexparse rd)])
    else none
  | .rd256 rs =>
    some ((List.finRange 8).flatMap fun k => [issueWord (.limbrd rs ⟨k.val, by omega⟩), .read offSrLo])
  | .rdhex rs => some (issueWord (.hexfmt rs) :: (List.finRange 16).map (fun j => .read (offHexbuf j)))
  | .clr rd => some [issueWord (.zero rd)]
  | .shlReg rd rs rn => some [issueWord (.shlv rd rs rn)]
  | .shrReg rd rs rn => some [issueWord (.shrv rd rs rn)]

/-! ### The text of a line -/

/-- The mnemonic of a command (30_encoding.md R310). -/
def mnemonic : Instr → String
  | .nop => "NOP"
  | .zero _ => "ZERO"
  | .mov _ _ => "MOV"
  | .ldi32 _ => "LDI32"
  | .ldi64 _ => "LDI64"
  | .limbrd _ _ => "LIMBRD"
  | .limbwr _ _ => "LIMBWR"
  | .add _ _ _ => "ADD"
  | .sub _ _ _ => "SUB"
  | .mul _ _ _ => "MUL"
  | .div _ _ _ => "DIV"
  | .mod _ _ _ => "MOD"
  | .divmod _ _ _ _ => "DIVMOD"
  | .and _ _ _ => "AND"
  | .or _ _ _ => "OR"
  | .xor _ _ _ => "XOR"
  | .not _ _ => "NOT"
  | .shl _ _ => "SHL"
  | .shr _ _ => "SHR"
  | .shlv _ _ _ => "SHLV"
  | .shrv _ _ _ => "SHRV"
  | .cmpeq _ _ => "CMPEQ"
  | .cmplt _ _ => "CMPLT"
  | .cmple _ _ => "CMPLE"
  | .cmpgt _ _ => "CMPGT"
  | .cmpge _ _ => "CMPGE"
  | .hexparse _ => "HEXPARSE"
  | .hexfmt _ => "HEXFMT"
  | .trunc32 _ => "TRUNC32"
  | .trunc64 _ => "TRUNC64"
  | .tzcnt _ => "TZCNT"
  | .hash _ => "HASH"

/-- A value register's name, v0 to v15 (30_encoding.md R330). -/
def regName (r : VReg) : String := "v" ++ Nat.repr r.val

/-- A command's operands in the order of the syntax, its scalar operand left out (30_encoding.md R330). -/
def operandNames : Instr → List String
  | .nop => []
  | .zero rd => [regName rd]
  | .mov rd rs1 => [regName rd, regName rs1]
  | .ldi32 rd => [regName rd]
  | .ldi64 rd => [regName rd]
  | .limbrd rs1 idx => [regName rs1, Nat.repr idx.val]
  | .limbwr rd idx => [regName rd, Nat.repr idx.val]
  | .add rd rs1 rs2 => [regName rd, regName rs1, regName rs2]
  | .sub rd rs1 rs2 => [regName rd, regName rs1, regName rs2]
  | .mul rd rs1 rs2 => [regName rd, regName rs1, regName rs2]
  | .div rd rs1 rs2 => [regName rd, regName rs1, regName rs2]
  | .mod rd rs1 rs2 => [regName rd, regName rs1, regName rs2]
  | .divmod rd rd2 rs1 rs2 => [regName rd, regName rd2, regName rs1, regName rs2]
  | .and rd rs1 rs2 => [regName rd, regName rs1, regName rs2]
  | .or rd rs1 rs2 => [regName rd, regName rs1, regName rs2]
  | .xor rd rs1 rs2 => [regName rd, regName rs1, regName rs2]
  | .not rd rs1 => [regName rd, regName rs1]
  | .shl rd rs1 => [regName rd, regName rs1]
  | .shr rd rs1 => [regName rd, regName rs1]
  | .shlv rd rs1 rs2 => [regName rd, regName rs1, regName rs2]
  | .shrv rd rs1 rs2 => [regName rd, regName rs1, regName rs2]
  | .cmpeq rs1 rs2 => [regName rs1, regName rs2]
  | .cmplt rs1 rs2 => [regName rs1, regName rs2]
  | .cmple rs1 rs2 => [regName rs1, regName rs2]
  | .cmpgt rs1 rs2 => [regName rs1, regName rs2]
  | .cmpge rs1 rs2 => [regName rs1, regName rs2]
  | .hexparse rd => [regName rd]
  | .hexfmt rs1 => [regName rs1]
  | .trunc32 rs1 => [regName rs1]
  | .trunc64 rs1 => [regName rs1]
  | .tzcnt rs1 => [regName rs1]
  | .hash rs1 => [regName rs1]

/-- The text of one line: the mnemonic, then the operands and the scalar operand separated by commas (30_encoding.md
R330). -/
def lineText (i : Instr) (imm : Option Nat) : String :=
  let ops := operandNames i ++ (match imm with | none => [] | some n => [Nat.repr n])
  if ops.isEmpty then mnemonic i else mnemonic i ++ " " ++ String.intercalate ", " ops

end Sys2Proof.Machine
end

