-- ==== Sys2Proof/Safety.lean ====
section
/-! DEFINITION. What a good run is (60_exceptions.md R1108), what a state's fault record may be (R1102 to R1104), and what a
command may change. Statements are written in these terms. -/

namespace Sys2Proof.Machine

/-! ### The end of a run -/

/-- How a run stands (60_exceptions.md R1108): reaching ERR = 1 is its fault outcome, never a successful end. -/
inductive Verdict where
  | good
  | faulted (cause : BitVec 4) (finfo : Byte) (fcmd : Word)
  deriving DecidableEq, Repr

/-- The verdict of a state. -/
def verdict (s : State) : Verdict := if s.status.err then .faulted s.status.cause s.status.finfo s.fcmd else .good

/-! ### Fault records -/

/-- The cause and FINFO a command can record, apart from ILLEGAL_INSTR (60_exceptions.md R1102, R1103). -/
def mayRecord (i : Instr) (cause : BitVec 4) (finfo : Byte) : Bool :=
  match i with
  | .div _ _ _ => cause == 0x2#4 && finfo == 0#8
  | .mod _ _ _ => cause == 0x2#4 && finfo == 0#8
  | .divmod _ _ _ _ => cause == 0x2#4 && finfo == 0#8
  | .shl _ _ => cause == 0x3#4 && finfo == 0#8
  | .shr _ _ => cause == 0x3#4 && finfo == 0#8
  | .shlv _ _ _ => cause == 0x3#4 && finfo == 0#8
  | .shrv _ _ _ => cause == 0x3#4 && finfo == 0#8
  | .limbrd _ idx => cause == 0x4#4 && finfo.toNat == idx.val && decide (8 ≤ idx.val)
  | .limbwr _ idx => cause == 0x4#4 && finfo.toNat == idx.val && decide (8 ≤ idx.val)
  | .hexparse _ =>
    (cause == 0x5#4 && finfo == 0#8)
      || (cause == 0x6#4 && decide (64 < finfo.toNat))
      || (cause == 0x7#4 && decide (finfo.toNat < 64) && finfo.toNat % 2 == 1)
      || (cause == 0x8#4 && decide (finfo.toNat < 64))
  | .nop => false
  | .zero _ => false
  | .mov _ _ => false
  | .ldi32 _ => false
  | .ldi64 _ => false
  | .add _ _ _ => false
  | .sub _ _ _ => false
  | .mul _ _ _ => false
  | .and _ _ _ => false
  | .or _ _ _ => false
  | .xor _ _ _ => false
  | .not _ _ => false
  | .cmpeq _ _ => false
  | .cmplt _ _ => false
  | .cmple _ _ => false
  | .cmpgt _ _ => false
  | .cmpge _ _ => false
  | .hexfmt _ => false
  | .trunc32 _ => false
  | .trunc64 _ => false
  | .tzcnt _ => false
  | .hash _ => false

/-- STATUS and FCMD agree (10_state.md R110, R111; 60_exceptions.md R1102 to R1104): with ERR = 0 all are 0, and with
ERR = 1 the word in FCMD is one that can raise the recorded cause with the recorded information. -/
def faultRecordOk (s : State) : Bool :=
  if s.status.err then
    match decode s.fcmd with
    | .error _ => s.status.cause == 0x1#4 && s.status.finfo == 0#8
    | .ok i => mayRecord i s.status.cause s.status.finfo
  else s.status.cause == 0#4 && s.status.finfo == 0#8 && s.fcmd == 0#32

/-! ### What a command changes -/

/-- DATA, the text, the fault record and the port are as before, and CCNT counted one command. -/
def CountsOneCommand (s t : State) : Prop :=
  t.ccnt.toNat = (s.ccnt.toNat + 1) % 2 ^ 32 ∧ t.data = s.data ∧ t.status = s.status ∧ t.fcmd = s.fcmd ∧
    t.inputs = s.inputs ∧ t.response = s.response

/-- A completed command that writes no register but value registers of `ds`. -/
def WritesOnlyV (ds : List VReg) (s t : State) : Prop :=
  (∀ r, r ∉ ds → t.readV r = s.readV r) ∧ t.sr = s.sr ∧ t.hexbuf = s.hexbuf ∧ t.hexlen = s.hexlen ∧ CountsOneCommand s t

/-- A completed command that writes SR and nothing else. -/
def WritesOnlySR (s t : State) : Prop :=
  (∀ r, t.readV r = s.readV r) ∧ t.hexbuf = s.hexbuf ∧ t.hexlen = s.hexlen ∧ CountsOneCommand s t

/-- A completed command that writes HEXBUF and HEXLEN and nothing else. -/
def WritesOnlyText (s t : State) : Prop :=
  (∀ r, t.readV r = s.readV r) ∧ t.sr = s.sr ∧ CountsOneCommand s t

/-- A command of word `w` that takes a fault: ERR, CAUSE, FINFO and FCMD are written and nothing else
(60_exceptions.md R1104). -/
def FaultsWith (c : Cause) (info : Byte) (w : Word) (s t : State) : Prop :=
  t.status.err = true ∧ t.status.cause = c.code ∧ t.status.finfo = info ∧ t.fcmd = w ∧
    (∀ r, t.readV r = s.readV r) ∧ t.sr = s.sr ∧ t.data = s.data ∧ t.hexbuf = s.hexbuf ∧ t.hexlen = s.hexlen ∧
    t.ccnt = s.ccnt ∧ t.inputs = s.inputs ∧ t.response = s.response

/-! ### Encodings -/

/-- The command word of `i` has the opcode and the format the map gives it, and decodes to `i` (30_encoding.md R302, R310,
R313). -/
def EncodedAs (i : Instr) (op : BitVec 6) (fmt : Format) : Prop :=
  opField (encode i) = op ∧ i.format = fmt ∧ encode i &&& fmt.mask = opMatch op ∧ decode (encode i) = .ok i

/-- The unassigned opcodes (30_encoding.md R311(a)). -/
def unassignedOpcodes : List Nat := [0x07, 0x0E, 0x0F, 0x1D, 0x1E, 0x1F, 0x22, 0x23]

/-- A word is illegal (30_encoding.md R311): (a) an unassigned opcode, (b) a set bit the opcode's format compares, or
(c) DIVMOD with rd = rd2. -/
def IllegalWord (w : Word) : Prop :=
  ((opField w).toNat ∈ unassignedOpcodes ∨ 0x28 ≤ (opField w).toNat) ∨
    (∃ row ∈ opcodeTable, row.op = opField w ∧ w &&& row.fmt.mask ≠ opMatch (opField w)) ∨
    (opField w = 0x0D#6 ∧ w.extractLsb' 22 4 = w.extractLsb' 10 4)

/-! ### Registers a command reads and writes (10_state.md R103) -/

/-- The value registers a command may write. -/
def destRegs : Instr → List VReg
  | .zero rd => [rd]
  | .mov rd _ => [rd]
  | .ldi32 rd => [rd]
  | .ldi64 rd => [rd]
  | .limbwr rd _ => [rd]
  | .add rd _ _ => [rd]
  | .sub rd _ _ => [rd]
  | .mul rd _ _ => [rd]
  | .div rd _ _ => [rd]
  | .mod rd _ _ => [rd]
  | .divmod rd rd2 _ _ => [rd, rd2]
  | .and rd _ _ => [rd]
  | .or rd _ _ => [rd]
  | .xor rd _ _ => [rd]
  | .not rd _ => [rd]
  | .shl rd _ => [rd]
  | .shr rd _ => [rd]
  | .shlv rd _ _ => [rd]
  | .shrv rd _ _ => [rd]
  | .hexparse rd => [rd]
  | .nop => []
  | .limbrd _ _ => []
  | .cmpeq _ _ => []
  | .cmplt _ _ => []
  | .cmple _ _ => []
  | .cmpgt _ _ => []
  | .cmpge _ _ => []
  | .hexfmt _ => []
  | .trunc32 _ => []
  | .trunc64 _ => []
  | .tzcnt _ => []
  | .hash _ => []

/-- The value registers a command reads; LIMBWR reads the limbs of v[rd] it does not write. -/
def sourceRegs : Instr → List VReg
  | .mov _ rs1 => [rs1]
  | .limbrd rs1 _ => [rs1]
  | .limbwr rd _ => [rd]
  | .add _ rs1 rs2 => [rs1, rs2]
  | .sub _ rs1 rs2 => [rs1, rs2]
  | .mul _ rs1 rs2 => [rs1, rs2]
  | .div _ rs1 rs2 => [rs1, rs2]
  | .mod _ rs1 rs2 => [rs1, rs2]
  | .divmod _ _ rs1 rs2 => [rs1, rs2]
  | .and _ rs1 rs2 => [rs1, rs2]
  | .or _ rs1 rs2 => [rs1, rs2]
  | .xor _ rs1 rs2 => [rs1, rs2]
  | .not _ rs1 => [rs1]
  | .shl _ rs1 => [rs1]
  | .shr _ rs1 => [rs1]
  | .shlv _ rs1 rs2 => [rs1, rs2]
  | .shrv _ rs1 rs2 => [rs1, rs2]
  | .cmpeq rs1 rs2 => [rs1, rs2]
  | .cmplt rs1 rs2 => [rs1, rs2]
  | .cmple rs1 rs2 => [rs1, rs2]
  | .cmpgt rs1 rs2 => [rs1, rs2]
  | .cmpge rs1 rs2 => [rs1, rs2]
  | .hexfmt rs1 => [rs1]
  | .trunc32 rs1 => [rs1]
  | .trunc64 rs1 => [rs1]
  | .tzcnt rs1 => [rs1]
  | .hash rs1 => [rs1]
  | .nop => []
  | .zero _ => []
  | .ldi32 _ => []
  | .ldi64 _ => []
  | .hexparse _ => []

/-- The commands that write SR (10_state.md R106). -/
def writesSR : Instr → Bool
  | .limbrd _ _ => true
  | .cmpeq _ _ => true
  | .cmplt _ _ => true
  | .cmple _ _ => true
  | .cmpgt _ _ => true
  | .cmpge _ _ => true
  | .trunc32 _ => true
  | .trunc64 _ => true
  | .tzcnt _ => true
  | .hash _ => true
  | .nop => false
  | .zero _ => false
  | .mov _ _ => false
  | .ldi32 _ => false
  | .ldi64 _ => false
  | .limbwr _ _ => false
  | .add _ _ _ => false
  | .sub _ _ _ => false
  | .mul _ _ _ => false
  | .div _ _ _ => false
  | .mod _ _ _ => false
  | .divmod _ _ _ _ => false
  | .and _ _ _ => false
  | .or _ _ _ => false
  | .xor _ _ _ => false
  | .not _ _ => false
  | .shl _ _ => false
  | .shr _ _ => false
  | .shlv _ _ _ => false
  | .shrv _ _ _ => false
  | .hexparse _ => false
  | .hexfmt _ => false

/-- The commands that read DATA (10_state.md R107). -/
def readsData : Instr → Bool
  | .ldi32 _ => true
  | .ldi64 _ => true
  | .limbwr _ _ => true
  | .shl _ _ => true
  | .shr _ _ => true
  | .nop => false
  | .zero _ => false
  | .mov _ _ => false
  | .limbrd _ _ => false
  | .add _ _ _ => false
  | .sub _ _ _ => false
  | .mul _ _ _ => false
  | .div _ _ _ => false
  | .mod _ _ _ => false
  | .divmod _ _ _ _ => false
  | .and _ _ _ => false
  | .or _ _ _ => false
  | .xor _ _ _ => false
  | .not _ _ => false
  | .shlv _ _ _ => false
  | .shrv _ _ _ => false
  | .cmpeq _ _ => false
  | .cmplt _ _ => false
  | .cmple _ _ => false
  | .cmpgt _ _ => false
  | .cmpge _ _ => false
  | .hexparse _ => false
  | .hexfmt _ => false
  | .trunc32 _ => false
  | .trunc64 _ => false
  | .tzcnt _ => false
  | .hash _ => false

/-! ### Hexadecimal text -/

/-- HB[i], and 0 past the buffer's end, where no statement looks. -/
def charAt (s : State) (i : Nat) : Byte := s.hexbuf.toList.getD i 0#8

/-- A hex digit's character (45_hex.md R900). -/
def IsHexDigit (c : Byte) : Prop :=
  (0x30 ≤ c.toNat ∧ c.toNat ≤ 0x39) ∨ (0x41 ≤ c.toNat ∧ c.toNat ≤ 0x46) ∨ (0x61 ≤ c.toNat ∧ c.toNat ≤ 0x66)

/-- nib(c), the value of a hex digit (45_hex.md R900). -/
def nib (c : Byte) : Nat :=
  if c.toNat ≤ 0x39 then c.toNat - 0x30 else if c.toNat ≤ 0x46 then c.toNat - 0x41 + 10 else c.toNat - 0x61 + 10

/-- hexchar(d) (45_hex.md R900). -/
def hexCharCode (d : Nat) : Nat := if d ≤ 9 then 0x30 + d else 0x61 + (d - 10)

/-- A letter in lowercase; every other character as it is (45_hex.md R904). -/
def lowercase (c : Byte) : Byte := if 0x41 ≤ c.toNat ∧ c.toNat ≤ 0x46 then c + 0x20#8 else c

/-- The text passes every check (45_hex.md R901). -/
def ValidText (s : State) : Prop :=
  0 < s.hexlen.toNat ∧ s.hexlen.toNat ≤ 64 ∧ s.hexlen.toNat % 2 = 0 ∧
    ∀ i < s.hexlen.toNat, IsHexDigit (charAt s i)

/-- The number a valid text denotes: Σ nib(HB[i]) · 16^(n−1−i) (45_hex.md R902). -/
def textNumber (s : State) : Nat :=
  ∑ i ∈ Finset.range s.hexlen.toNat, nib (charAt s i) * 16 ^ (s.hexlen.toNat - 1 - i)

/-! ### When a command word faults (60_exceptions.md R1102) -/

/-- The condition of a cause for the word `w` in a state. -/
def CauseHolds (w : Word) (s : State) : Cause → Prop
  | .illegalInstr => IllegalWord w
  | .divByZero => ∃ rd rd2 rs1 rs2, s.readV rs2 = 0#256 ∧
      (decode w = .ok (.div rd rs1 rs2) ∨ decode w = .ok (.mod rd rs1 rs2) ∨ decode w = .ok (.divmod rd rd2 rs1 rs2))
  | .shiftRange => ∃ rd rs1 rs2,
      (2 ^ 32 ≤ s.data.toNat ∧ (decode w = .ok (.shl rd rs1) ∨ decode w = .ok (.shr rd rs1))) ∨
      (2 ^ 32 ≤ (s.readV rs2).toNat ∧ (decode w = .ok (.shlv rd rs1 rs2) ∨ decode w = .ok (.shrv rd rs1 rs2)))
  | .limbIndex => ∃ r idx, 7 < idx.val ∧ (decode w = .ok (.limbrd r idx) ∨ decode w = .ok (.limbwr r idx))
  | .hexEmpty => ∃ rd, decode w = .ok (.hexparse rd) ∧ s.hexlen.toNat = 0
  | .hexTooLong => ∃ rd, decode w = .ok (.hexparse rd) ∧ 64 < s.hexlen.toNat
  | .hexOddLength => ∃ rd, decode w = .ok (.hexparse rd) ∧ s.hexlen.toNat ≤ 63 ∧ s.hexlen.toNat % 2 = 1
  | .hexBadChar => ∃ rd, decode w = .ok (.hexparse rd) ∧ s.hexlen.toNat ≤ 64 ∧ s.hexlen.toNat % 2 = 0 ∧
      ∃ i < s.hexlen.toNat, ¬ IsHexDigit (charAt s i)

/-! ### Inputs that reset the block (70_reset_and_hazards.md R1200) -/

/-- An assertion of `rst`, or a write to CTRL with bit 0 set. -/
def Resets : Input → Prop
  | .rst => True
  | .write off w => wordOffset off = 0x1C#8 ∧ w.getLsbD 0 = true
  | .read _ => False

/-- Every state element of the block holds its reset value (70_reset_and_hazards.md R1201). -/
def HoldsResetValues (t : State) : Prop :=
  (∀ r, t.readV r = 0#256) ∧ t.sr = 0#64 ∧ t.data = 0#64 ∧ (∀ i : Fin 64, t.hexbuf[i] = 0#8) ∧ t.hexlen = 0#8 ∧
    t.status.err = false ∧ t.status.cause = 0#4 ∧ t.status.finfo = 0#8 ∧ t.fcmd = 0#32 ∧ t.ccnt = 0#32 ∧
    winRead 0x28#8 t = 0x55323536#32

/-- What the port shows after an input: a read's word comes from `s`, a write answers completion, `rst` nothing. -/
def answerTo (x : Input) (s : State) : Option Response :=
  match x with
  | .read off => some (.rdata (winRead off s))
  | .write _ _ => some .completion
  | .rst => none

end Sys2Proof.Machine
end

