-- ==== Sys2Proof/Certificates/Slice0/Obligations.lean ====
section
/-! DEFINITION. The statements for the provers. Each says which rule of spec/ it formalises. A statement about a command's
effect has as its conclusion that `exec` answers a next state, for every state, and says what that state holds and what it
leaves unchanged (WritesOnlyV, WritesOnlySR, WritesOnlyText, FaultsWith of Safety.lean). -/

open Sys2Proof Sys2Proof.Machine

/-! ### Encoding -/

/-- 30_encoding.md R313, R333 (both derived in the spec): decoding the encoded word of a well-formed instruction gives the
instruction back, every operand at every value. -/
def Obligations.DecodeEncodeRoundTrip : Prop :=
  ∀ i : Instr, i.wf = true → decode (encode i) = .ok i

/-- 30_encoding.md R312, R313: every word that decodes is the encoding of the one instruction it decodes to, so no bit of a
legal word is dropped and no two words mean the same command. -/
def Obligations.EncodeDecodeRoundTrip : Prop :=
  ∀ (w : Word) (i : Instr), decode w = .ok i → i.wf = true ∧ encode i = w

/-- 30_encoding.md R311: the decoder refuses exactly the illegal words, and outside the fault state a write of one to CMD
takes ILLEGAL_INSTR with FINFO = 0. -/
def Obligations.IllegalWordsTakeIllegalInstr : Prop :=
  ∀ (w : Word) (s : State),
    ((∃ i, decode w = .ok i) ↔ ¬ IllegalWord w) ∧
    (s.status.err = false → IllegalWord w →
      ∃ t, winWrite 0x00#8 w s = .next t ∧ FaultsWith .illegalInstr 0#8 w s t)

/-- Words written out from 30_encoding.md R301, R302 and R310 decode to the commands they stand for. -/
def Obligations.KnownWordsDecode : Prop :=
  decode 0x00000000#32 = .ok .nop ∧ decode 0x1840C000#32 = .ok (.limbwr 1 3) ∧
  decode 0x24C48000#32 = .ok (.sub 3 1 2) ∧ decode 0x35049400#32 = .ok (.divmod 4 5 1 2) ∧
  decode 0x4CC40000#32 = .ok (.not 3 1) ∧ decode 0x5CC48000#32 = .ok (.shrv 3 1 2) ∧
  decode 0x6008C000#32 = .ok (.cmpeq 2 3) ∧ decode 0x80C00000#32 = .ok (.hexparse 3) ∧
  decode 0x9C200000#32 = .ok (.hash 8) ∧ decode 0x35049000#32 = .error .divmodSameDest ∧
  decode 0x1C000000#32 = .error .unassignedOpcode ∧ decode 0x20C48001#32 = .error .reservedBits

/-! ### Steps -/

/-- 30_encoding.md R320: a write of `w` to CMD is ignored in the fault state; outside it an illegal word takes ILLEGAL_INSTR,
and a word that decodes to `i` runs `i`, which commits and counts the command or takes a fault. -/
def Obligations.CmdWriteRunsDecodedCommand : Prop :=
  ∀ (w : Word) (s : State),
    (s.status.err = true → winWrite 0x00#8 w s = .next s) ∧
    (s.status.err = false → ∀ e, decode w = .error e →
      ∃ t, winWrite 0x00#8 w s = .next t ∧ FaultsWith .illegalInstr 0#8 w s t) ∧
    (s.status.err = false → ∀ i, decode w = .ok i → winWrite 0x00#8 w s = exec i s ∧
      ∃ t, exec i s = .next t ∧ (CountsOneCommand s t ∨ ∃ c info, FaultsWith c info w s t))

/-- A step runs the decoded command (30_encoding.md R320). The list of inputs and the response are the model's form of the
port of 20_memory.md R214 (log entries 1 and 2). A step whose next input writes the word `w` to CMD ignores it in the fault state, takes
ILLEGAL_INSTR for an illegal word, and for a word that decodes to `i` is exec of `i` at the state with that input taken, the
port answering completion; that exec commits and counts the command, or takes a fault. -/
def Obligations.StepRunsDecodedCommand : Prop :=
  ∀ (s : State) (off : BitVec 8) (w : Word) (rest : List Input),
    s.inputs = .write off w :: rest → wordOffset off = 0x00#8 →
    (s.status.err = true → step s = .next { s with inputs := rest, response := some .completion }) ∧
    (s.status.err = false → ∀ e, decode w = .error e →
      ∃ t, step s = .next t ∧ FaultsWith .illegalInstr 0#8 w { s with inputs := rest, response := some .completion } t) ∧
    (s.status.err = false → ∀ i, decode w = .ok i →
      ∃ t, exec i { s with inputs := rest } = .next t ∧ step s = .next { t with response := some .completion } ∧
        (CountsOneCommand { s with inputs := rest } t ∨ ∃ c info, FaultsWith c info w { s with inputs := rest } t))

/-- 20_memory.md R210, R214: a step takes the oldest input and serves it to its end: a read answers the window's word and changes
nothing, a write has its whole effect on the block and answers completion, `rst` gives the reset state
(70_reset_and_hazards.md R1200). The model's choices in it are the list of inputs (log entry 1), the response field (log entry 2),
that nothing changes with no input to come (log entry 3), and that `rst` answers nothing and keeps the later inputs (log entry 9). -/
def Obligations.StepServesOldestInput : Prop :=
  (∀ s : State, s.inputs = [] → step s = .next s) ∧
  (∀ (s : State) (x : Input) (rest : List Input), s.inputs = x :: rest →
    ∃ t, step s = .next t ∧ t.inputs = rest ∧ t.response = answerTo x s ∧
      (∀ off, x = .read off → t = { s with inputs := rest, response := some (.rdata (winRead off s)) }) ∧
      (∀ off w, x = .write off w →
        ∃ u, winWrite off w { s with inputs := rest } = .next u ∧ t = { u with response := some .completion }) ∧
      (x = .rst → t = { State.reset with inputs := rest, response := none }))

/-- 60_exceptions.md R1101, R1104: every command either commits and is counted, with no fault recorded, or records a fault and
writes nothing else, and so does a write of any word to CMD. No command stops the machine. -/
def Obligations.CommandsSucceedOrFault : Prop :=
  (∀ (i : Instr) (s : State), ∃ t, exec i s = .next t ∧
    (CountsOneCommand s t ∨ ∃ c info, FaultsWith c info (encode i) s t)) ∧
  (∀ (w : Word) (s : State), s.status.err = false → ∃ t, winWrite 0x00#8 w s = .next t ∧
    (CountsOneCommand s t ∨ ∃ c info, FaultsWith c info w s t))

/-! ### Faults -/

/-- 60_exceptions.md R1102: outside the fault state a CMD write records a cause exactly when that cause's condition holds, and
records no other code. -/
def Obligations.FaultCauses : Prop :=
  ∀ (w : Word) (s : State), s.status.err = false →
    ∃ t, winWrite 0x00#8 w s = .next t ∧
      (∀ c : Cause, (t.status.err = true ∧ t.status.cause = c.code) ↔ CauseHolds w s c) ∧
      (t.status.err = true → ∃ c : Cause, t.status.cause = c.code)

/-- 60_exceptions.md R1103: what FINFO and FCMD record. -/
def Obligations.FaultInformation : Prop :=
  ∀ (w : Word) (s t : State), s.status.err = false → winWrite 0x00#8 w s = .next t → t.status.err = true →
    t.fcmd = w ∧
    (t.status.cause = 0x4#4 → ∃ r idx, (decode w = .ok (.limbrd r idx) ∨ decode w = .ok (.limbwr r idx)) ∧
      t.status.finfo.toNat = idx.val ∧ 8 ≤ idx.val) ∧
    (t.status.cause = 0x6#4 ∨ t.status.cause = 0x7#4 → t.status.finfo = s.hexlen) ∧
    (t.status.cause = 0x8#4 → t.status.finfo.toNat < s.hexlen.toNat ∧ t.status.finfo.toNat ≤ 63 ∧
      ¬ IsHexDigit (charAt s t.status.finfo.toNat) ∧
      ∀ j < t.status.finfo.toNat, IsHexDigit (charAt s j)) ∧
    (t.status.cause = 0x1#4 ∨ t.status.cause = 0x2#4 ∨ t.status.cause = 0x3#4 ∨ t.status.cause = 0x5#4 →
      t.status.finfo = 0#8)

/-- 60_exceptions.md R1105: in the fault state a CMD write changes nothing; every other read and write does what it does
outside the fault state, whatever STATUS holds. -/
def Obligations.FaultStateIgnoresCommands : Prop :=
  ∀ (off : BitVec 8) (w : Word) (s : State) (st : Status), s.status.err = true →
    (wordOffset off = 0x00#8 → winWrite off w s = .next s) ∧
    (wordOffset off ≠ 0x0C#8 → winRead off s = winRead off { s with status := st }) ∧
    (wordOffset off ≠ 0x00#8 → wordOffset off ≠ 0x1C#8 → ∃ t, winWrite off w s = .next t ∧ t.status = s.status ∧
      winWrite off w { s with status := st } = .next { t with status := st }) ∧
    (wordOffset off = 0x1C#8 → winWrite off w s = .next (if w.getLsbD 0 then resetBlock s else s))

/-- 60_exceptions.md R1106: in the fault state a step that serves no reset keeps STATUS and FCMD, so no command returns from
the fault and none faults again; a reset gives every state element its reset value. -/
def Obligations.OnlyResetLeavesFaultState : Prop :=
  (∀ s t : State, s.status.err = true → step s = .next t →
    (t.status = s.status ∧ t.fcmd = s.fcmd) ∨ ∃ x rest, s.inputs = x :: rest ∧ Resets x) ∧
  (∀ (s : State) (x : Input) (rest : List Input), s.inputs = x :: rest → Resets x →
    step s = .next { State.reset with inputs := rest, response := answerTo x s })

/-- 60_exceptions.md R1105, R1106, R1108: a run that has faulted stays faulted. For any number of steps that serve no reset,
the verdict, the first fault's record, the value registers, SR and CCNT keep their values. -/
def Obligations.FaultedRunStaysFaulted : Prop :=
  ∀ (k : Nat) (s t : State), s.status.err = true → (∀ x ∈ s.inputs.take k, ¬ Resets x) →
    Sys2Proof.core.run k s = .next t →
    verdict t = verdict s ∧ t.status = s.status ∧ t.fcmd = s.fcmd ∧ t.sr = s.sr ∧ t.ccnt = s.ccnt ∧ (∀ r, t.readV r = s.readV r)

/-- 10_state.md R110, R111; 60_exceptions.md R1102 to R1104: a step keeps STATUS and FCMD in agreement. With ERR = 0 all are 0;
with ERR = 1 the recorded word is one that can raise the recorded cause with the recorded information. -/
def Obligations.FaultRecordInvariant : Prop :=
  ∀ s t : State, faultRecordOk s = true → step s = .next t → faultRecordOk t = true

/-- The reset state meets the invariant of FaultRecordInvariant. -/
def Obligations.ResetMeetsFaultRecordInvariant : Prop := faultRecordOk State.reset = true

/-! ### Reset -/

/-- 70_reset_and_hazards.md R1201: the value of every state element right after reset, and after a reset from any state by
either of its two events; ID is a constant that no state changes. -/
def Obligations.ResetValues : Prop :=
  HoldsResetValues State.reset ∧ (∀ s : State, winRead 0x28#8 s = 0x55323536#32) ∧
  ∀ (s : State) (x : Input), Resets x → ∃ t, serve x s = .next t ∧ HoldsResetValues t

/-- 10_state.md R115: a write to CTRL with bit 0 set resets the block, whatever bits 31 to 1 are; one with bit 0 clear has no
effect; CTRL reads 0. -/
def Obligations.CtrlWriteResets : Prop :=
  ∀ (s : State) (off : BitVec 8) (w : Word), wordOffset off = 0x1C#8 →
    (w.getLsbD 0 = true → ∃ t, winWrite off w s = .next t ∧ HoldsResetValues t) ∧
    (w.getLsbD 0 = false → winWrite off w s = .next s) ∧
    winRead off s = 0#32

/-- 70_reset_and_hazards.md R1200: `rst` and a write to CTRL with bit 0 set leave the same block state, the reset state, from
any state. That the inputs still to come stay, and that `rst` answers nothing, are the model's choice (log entry 9). -/
def Obligations.RstAndCtrlResetAlike : Prop :=
  ∀ (s : State) (off : BitVec 8) (w : Word), wordOffset off = 0x1C#8 → w.getLsbD 0 = true →
    ∃ t u, serve (.write off w) s = .next t ∧ serve .rst s = .next u ∧
      { t with response := none } = u ∧ u = { State.reset with inputs := s.inputs }

/-! ### The window -/

/-- 20_memory.md R204: what a read returns at every offset, and that it changes no state; its answer stands in the model's form of
the port of R214 (log entry 2). -/
def Obligations.WindowReads : Prop :=
  ∀ (s : State) (off : BitVec 8),
    (wordOffset off = 0x00#8 ∨ wordOffset off = 0x1C#8 → winRead off s = 0#32) ∧
    (wordOffset off = 0x04#8 → (winRead off s).toNat = s.data.toNat % 2 ^ 32) ∧
    (wordOffset off = 0x08#8 → (winRead off s).toNat = s.data.toNat / 2 ^ 32) ∧
    (wordOffset off = 0x0C#8 → (winRead off s).toNat =
      s.status.finfo.toNat * 2 ^ 8 + s.status.cause.toNat * 2 ^ 4 + (if s.status.err then 1 else 0)) ∧
    (wordOffset off = 0x10#8 → (winRead off s).toNat = s.sr.toNat % 2 ^ 32) ∧
    (wordOffset off = 0x14#8 → (winRead off s).toNat = s.sr.toNat / 2 ^ 32) ∧
    (wordOffset off = 0x18#8 → (winRead off s).toNat = s.hexlen.toNat) ∧
    (wordOffset off = 0x20#8 → winRead off s = s.fcmd) ∧
    (wordOffset off = 0x24#8 → winRead off s = s.ccnt) ∧
    (wordOffset off = 0x28#8 → winRead off s = 0x55323536#32) ∧
    (∀ (j : Fin 16) (b : Fin 4), (wordOffset off).toNat = 0x40 + 4 * j.val →
      (winRead off s).extractLsb' (8 * b.val) 8 = charAt s (4 * j.val + b.val)) ∧
    (0x2C ≤ (wordOffset off).toNat ∧ (wordOffset off).toNat ≤ 0x3C ∨ 0x80 ≤ (wordOffset off).toNat → winRead off s = 0#32) ∧
    serve (.read off) s = .next { s with response := some (.rdata (winRead off s)) }

/-- 20_memory.md R205: what a write does at every offset, in the fault state too, and what it leaves unchanged. A write to CMD
runs the command by 30_encoding.md R320, which is the statement StepRunsDecodedCommand. -/
def Obligations.WindowWrites : Prop :=
  ∀ (s : State) (off : BitVec 8) (w : Word),
    (wordOffset off = 0x00#8 → winWrite off w s = runCommand w s) ∧
    (wordOffset off = 0x00#8 → s.status.err = true → winWrite off w s = .next s) ∧
    (wordOffset off = 0x04#8 → ∃ d : Scalar, winWrite off w s = .next { s with data := d } ∧
      d.extractLsb' 0 32 = w ∧ d.extractLsb' 32 32 = s.data.extractLsb' 32 32) ∧
    (wordOffset off = 0x08#8 → ∃ d : Scalar, winWrite off w s = .next { s with data := d } ∧
      d.extractLsb' 32 32 = w ∧ d.extractLsb' 0 32 = s.data.extractLsb' 0 32) ∧
    (wordOffset off = 0x18#8 → winWrite off w s = .next { s with hexlen := w.extractLsb' 0 8 }) ∧
    (wordOffset off = 0x1C#8 → winWrite off w s = .next (if w.getLsbD 0 then resetBlock s else s)) ∧
    (∀ j : Fin 16, (wordOffset off).toNat = 0x40 + 4 * j.val →
      ∃ hb, winWrite off w s = .next { s with hexbuf := hb } ∧
        (∀ b : Fin 4, charAt { s with hexbuf := hb } (4 * j.val + b.val) = w.extractLsb' (8 * b.val) 8) ∧
        (∀ i, i / 4 ≠ j.val → charAt { s with hexbuf := hb } i = charAt s i)) ∧
    (wordOffset off ∈ [0x0C#8, 0x10#8, 0x14#8, 0x20#8, 0x24#8, 0x28#8] → winWrite off w s = .next s) ∧
    (0x2C ≤ (wordOffset off).toNat ∧ (wordOffset off).toNat ≤ 0x3C ∨ 0x80 ≤ (wordOffset off).toNat →
      winWrite off w s = .next s)

/-- 20_memory.md R205, R207, R208 (derived): DATA and HEXBUF read back as written, HEXLEN its low 8 bits, and no other word of
the window changes. -/
def Obligations.WindowWriteReadsBack : Prop :=
  ∀ (s t : State) (off : BitVec 8) (w : Word), winWrite off w s = .next t →
    (wordOffset off = 0x04#8 ∨ wordOffset off = 0x08#8 ∨
      (0x40 ≤ (wordOffset off).toNat ∧ (wordOffset off).toNat ≤ 0x7C) → winRead off t = w) ∧
    (wordOffset off = 0x18#8 → (winRead off t).toNat = w.toNat % 2 ^ 8) ∧
    (wordOffset off ≠ 0x00#8 → wordOffset off ≠ 0x1C#8 →
      ∀ other, wordOffset other ≠ wordOffset off → winRead other t = winRead other s)

/-- 20_memory.md R203: bits [1:0] of an offset are ignored, no access is misaligned and none faults. -/
def Obligations.OffsetLowBitsIgnored : Prop :=
  ∀ (s : State) (a b : BitVec 8) (w : Word),
    (∃ t, winWrite a w s = .next t) ∧
    (a.extractLsb' 2 6 = b.extractLsb' 2 6 → winRead a s = winRead b s ∧ winWrite a w s = winWrite b w s)

/-- 20_memory.md R200, R201 (the window's 256 offsets at WINDOW_BASE): a host address decodes to the offset it was made from,
and no address outside the window decodes. It holds for every WINDOW_BASE. That a host address is a natural number with no
bound and no wrap is the model's choice (log entry 6). -/
def Obligations.WindowAddressing : Prop :=
  (∀ off : BitVec 8, windowOffset (hostAddress off) = some off) ∧
  (∀ a : Nat, (∃ off, windowOffset a = some off) ↔ ∃ off : BitVec 8, a = hostAddress off)

/-! ### Limb store -/

/-- 40_limb_store.md R400: the only legal word of op 0x00 is 0, NOP; it counts and changes nothing else, and the fault state
ignores it. -/
def Obligations.NopOnlyCounts : Prop :=
  (∀ w : Word, decode w = .ok .nop ↔ w = 0#32) ∧ EncodedAs .nop 0x00#6 .n ∧
  (∀ (w : Word) (s : State), opField w = 0x00#6 → w ≠ 0#32 → s.status.err = false →
    ∃ t, winWrite 0x00#8 w s = .next t ∧ FaultsWith .illegalInstr 0#8 w s t) ∧
  (∀ s : State, s.status.err = true → winWrite 0x00#8 0#32 s = .next s) ∧
  ∀ s : State, ∃ t, exec .nop s = .next t ∧ WritesOnlyV [] s t

/-- 40_limb_store.md R401. -/
def Obligations.ZeroClears : Prop :=
  ∀ (rd : VReg) (s : State), EncodedAs (.zero rd) 0x01#6 .d ∧
    ∃ t, exec (.zero rd) s = .next t ∧ t.readV rd = 0#256 ∧ WritesOnlyV [rd] s t

/-- 40_limb_store.md R402; a later write to the source does not change the copy. -/
def Obligations.MovCopies : Prop :=
  ∀ (rd rs1 : VReg) (s : State), EncodedAs (.mov rd rs1) 0x02#6 .ds ∧
    ∃ t, exec (.mov rd rs1) s = .next t ∧ t.readV rd = s.readV rs1 ∧ WritesOnlyV [rd] s t ∧
      (rd ≠ rs1 → ∀ x, (t.writeV rs1 x).readV rd = s.readV rs1)

/-- 40_limb_store.md R403, R404: LDI32 takes DATA[31:0] whatever DATA[63:32] holds, LDI64 takes DATA. -/
def Obligations.LoadsFromData : Prop :=
  (∀ (rd : VReg) (s : State), EncodedAs (.ldi32 rd) 0x03#6 .d ∧
    ∃ t, exec (.ldi32 rd) s = .next t ∧ (t.readV rd).toNat = s.data.toNat % 2 ^ 32 ∧ WritesOnlyV [rd] s t) ∧
  (∀ (rd : VReg) (s : State), EncodedAs (.ldi64 rd) 0x04#6 .d ∧
    ∃ t, exec (.ldi64 rd) s = .next t ∧ (t.readV rd).toNat = s.data.toNat ∧ WritesOnlyV [rd] s t)

/-- 40_limb_store.md R405: limb idx of a value x is x[255-32·idx : 224-32·idx]. -/
def Obligations.LimbReadOrFault : Prop :=
  ∀ (rs1 : VReg) (idx : LimbIdx) (s : State), EncodedAs (.limbrd rs1 idx) 0x05#6 .si ∧
    (idx.val ≤ 7 → ∃ t, exec (.limbrd rs1 idx) s = .next t ∧
      t.sr.toNat = (s.readV rs1).toNat / 2 ^ (224 - 32 * idx.val) % 2 ^ 32 ∧ WritesOnlySR s t) ∧
    (7 < idx.val → ∃ t, exec (.limbrd rs1 idx) s = .next t ∧
      FaultsWith .limbIndex (BitVec.ofNat 8 idx.val) (encode (.limbrd rs1 idx)) s t)

/-- 40_limb_store.md R406: limb idx takes DATA[31:0] and the other seven limbs keep their values. -/
def Obligations.LimbWriteOrFault : Prop :=
  ∀ (rd : VReg) (idx : LimbIdx) (s : State), EncodedAs (.limbwr rd idx) 0x06#6 .di ∧
    (idx.val ≤ 7 → ∃ t, exec (.limbwr rd idx) s = .next t ∧
      (∀ j : Fin 8, (t.readV rd).extractLsb' (224 - 32 * j.val) 32 =
        if j.val = idx.val then s.data.extractLsb' 0 32 else (s.readV rd).extractLsb' (224 - 32 * j.val) 32) ∧
      WritesOnlyV [rd] s t) ∧
    (7 < idx.val → ∃ t, exec (.limbwr rd idx) s = .next t ∧
      FaultsWith .limbIndex (BitVec.ofNat 8 idx.val) (encode (.limbwr rd idx)) s t)

/-! ### Arithmetic -/

/-- 41_arithmetic.md R500: the schoolbook loop computes (a + b) mod 2^256. -/
def Obligations.AddWraps : Prop :=
  ∀ (rd rs1 rs2 : VReg) (s : State), EncodedAs (.add rd rs1 rs2) 0x08#6 .dss ∧
    ∃ t, exec (.add rd rs1 rs2) s = .next t ∧
      (t.readV rd).toNat = ((s.readV rs1).toNat + (s.readV rs2).toNat) % 2 ^ 256 ∧ WritesOnlyV [rd] s t

/-- 41_arithmetic.md R501: the schoolbook loop computes (a - b) mod 2^256. -/
def Obligations.SubWraps : Prop :=
  ∀ (rd rs1 rs2 : VReg) (s : State), EncodedAs (.sub rd rs1 rs2) 0x09#6 .dss ∧
    ∃ t, exec (.sub rd rs1 rs2) s = .next t ∧
      ((t.readV rd).toNat : Int) = (((s.readV rs1).toNat : Int) - (s.readV rs2).toNat) % 2 ^ 256 ∧ WritesOnlyV [rd] s t

/-- 41_arithmetic.md R502: the exact product's low 256 bits. -/
def Obligations.MulKeepsLowHalf : Prop :=
  ∀ (rd rs1 rs2 : VReg) (s : State), EncodedAs (.mul rd rs1 rs2) 0x0A#6 .dss ∧
    ∃ t, exec (.mul rd rs1 rs2) s = .next t ∧
      (t.readV rd).toNat = ((s.readV rs1).toNat * (s.readV rs2).toNat) % 2 ^ 256 ∧ WritesOnlyV [rd] s t

/-- 41_arithmetic.md R503, R504. -/
def Obligations.DivAndModOrFault : Prop :=
  ∀ (rd rs1 rs2 : VReg) (s : State),
    EncodedAs (.div rd rs1 rs2) 0x0B#6 .dss ∧ EncodedAs (.mod rd rs1 rs2) 0x0C#6 .dss ∧
    (s.readV rs2 ≠ 0#256 →
      (∃ t, exec (.div rd rs1 rs2) s = .next t ∧
        (t.readV rd).toNat = (s.readV rs1).toNat / (s.readV rs2).toNat ∧ WritesOnlyV [rd] s t) ∧
      (∃ t, exec (.mod rd rs1 rs2) s = .next t ∧
        (t.readV rd).toNat = (s.readV rs1).toNat % (s.readV rs2).toNat ∧ WritesOnlyV [rd] s t)) ∧
    (s.readV rs2 = 0#256 →
      (∃ t, exec (.div rd rs1 rs2) s = .next t ∧ FaultsWith .divByZero 0#8 (encode (.div rd rs1 rs2)) s t) ∧
      (∃ t, exec (.mod rd rs1 rs2) s = .next t ∧ FaultsWith .divByZero 0#8 (encode (.mod rd rs1 rs2)) s t))

/-- 41_arithmetic.md R505: quotient and remainder in one command, both sources read first; the word with rd = rd2 is
illegal. -/
def Obligations.DivmodGivesBoth : Prop :=
  ∀ (rd rd2 rs1 rs2 : VReg) (s : State),
    (rd ≠ rd2 → EncodedAs (.divmod rd rd2 rs1 rs2) 0x0D#6 .ddss ∧
      (s.readV rs2 ≠ 0#256 → ∃ t, exec (.divmod rd rd2 rs1 rs2) s = .next t ∧
        (t.readV rd).toNat = (s.readV rs1).toNat / (s.readV rs2).toNat ∧
        (s.readV rs1).toNat = (t.readV rd).toNat * (s.readV rs2).toNat + (t.readV rd2).toNat ∧
        (t.readV rd2).toNat < (s.readV rs2).toNat ∧ WritesOnlyV [rd, rd2] s t) ∧
      (s.readV rs2 = 0#256 → ∃ t, exec (.divmod rd rd2 rs1 rs2) s = .next t ∧
        FaultsWith .divByZero 0#8 (encode (.divmod rd rd2 rs1 rs2)) s t)) ∧
    (rd = rd2 → decode (encode (.divmod rd rd2 rs1 rs2)) = .error .divmodSameDest)

/-- 41_arithmetic.md R506: the division law by commands. DIV, MOD, MUL and ADD run one after the other give the dividend back
for every dividend and every non-zero divisor, with a remainder below the divisor. -/
def Obligations.DivisionLawByCommands : Prop :=
  ∀ (s : State) (q r p rs1 rs2 : VReg), [q, r, p, rs1, rs2].Nodup → s.readV rs2 ≠ 0#256 →
    ∃ t1 t2 t3 t4, exec (.div q rs1 rs2) s = .next t1 ∧ exec (.mod r rs1 rs2) t1 = .next t2 ∧
      exec (.mul p q rs2) t2 = .next t3 ∧ exec (.add p p r) t3 = .next t4 ∧
      t4.readV p = s.readV rs1 ∧ (t4.readV r).toNat < (s.readV rs2).toNat

/-! ### Bitwise logic -/

/-- 42_bitwise.md R600 to R602: each limb-wise command acts on limb k of its operands alone, and so as the same operation on
the whole values. -/
def Obligations.AndOrXorByLimbs : Prop :=
  ∀ (rd rs1 rs2 : VReg) (s : State),
    (EncodedAs (.and rd rs1 rs2) 0x10#6 .dss ∧ ∃ t, exec (.and rd rs1 rs2) s = .next t ∧
      t.readV rd = s.readV rs1 &&& s.readV rs2 ∧
      (∀ k, limb (t.readV rd) k = limb (s.readV rs1) k &&& limb (s.readV rs2) k) ∧ WritesOnlyV [rd] s t) ∧
    (EncodedAs (.or rd rs1 rs2) 0x11#6 .dss ∧ ∃ t, exec (.or rd rs1 rs2) s = .next t ∧
      t.readV rd = s.readV rs1 ||| s.readV rs2 ∧
      (∀ k, limb (t.readV rd) k = limb (s.readV rs1) k ||| limb (s.readV rs2) k) ∧ WritesOnlyV [rd] s t) ∧
    (EncodedAs (.xor rd rs1 rs2) 0x12#6 .dss ∧ ∃ t, exec (.xor rd rs1 rs2) s = .next t ∧
      t.readV rd = s.readV rs1 ^^^ s.readV rs2 ∧
      (∀ k, limb (t.readV rd) k = limb (s.readV rs1) k ^^^ limb (s.readV rs2) k) ∧ WritesOnlyV [rd] s t)

/-- 42_bitwise.md R603: 2^256 - 1 - v[rs1]. -/
def Obligations.NotComplements : Prop :=
  ∀ (rd rs1 : VReg) (s : State), EncodedAs (.not rd rs1) 0x13#6 .ds ∧
    ∃ t, exec (.not rd rs1) s = .next t ∧ (t.readV rd).toNat = 2 ^ 256 - 1 - (s.readV rs1).toNat ∧
      (∀ k, limb (t.readV rd) k = limb (s.readV rs1) k ^^^ 0xFFFFFFFF#32) ∧ WritesOnlyV [rd] s t

/-! ### Shifts -/

/-- 43_shift.md R700 to R702. -/
def Obligations.ShiftByData : Prop :=
  ∀ (rd rs1 : VReg) (s : State),
    EncodedAs (.shl rd rs1) 0x14#6 .ds ∧ EncodedAs (.shr rd rs1) 0x15#6 .ds ∧
    (s.data.toNat < 2 ^ 32 →
      (∃ t, exec (.shl rd rs1) s = .next t ∧
        (t.readV rd).toNat = (s.readV rs1).toNat * 2 ^ s.data.toNat % 2 ^ 256 ∧ WritesOnlyV [rd] s t) ∧
      (∃ t, exec (.shr rd rs1) s = .next t ∧
        (t.readV rd).toNat = (s.readV rs1).toNat / 2 ^ s.data.toNat ∧ WritesOnlyV [rd] s t)) ∧
    (2 ^ 32 ≤ s.data.toNat →
      (∃ t, exec (.shl rd rs1) s = .next t ∧ FaultsWith .shiftRange 0#8 (encode (.shl rd rs1)) s t) ∧
      (∃ t, exec (.shr rd rs1) s = .next t ∧ FaultsWith .shiftRange 0#8 (encode (.shr rd rs1)) s t))

/-- 43_shift.md R700, R703, R704: the amount is the whole of v[rs2], read before the result is written. -/
def Obligations.ShiftByRegister : Prop :=
  ∀ (rd rs1 rs2 : VReg) (s : State),
    EncodedAs (.shlv rd rs1 rs2) 0x16#6 .dss ∧ EncodedAs (.shrv rd rs1 rs2) 0x17#6 .dss ∧
    ((s.readV rs2).toNat < 2 ^ 32 →
      (∃ t, exec (.shlv rd rs1 rs2) s = .next t ∧
        (t.readV rd).toNat = (s.readV rs1).toNat * 2 ^ (s.readV rs2).toNat % 2 ^ 256 ∧ WritesOnlyV [rd] s t) ∧
      (∃ t, exec (.shrv rd rs1 rs2) s = .next t ∧
        (t.readV rd).toNat = (s.readV rs1).toNat / 2 ^ (s.readV rs2).toNat ∧ WritesOnlyV [rd] s t)) ∧
    (2 ^ 32 ≤ (s.readV rs2).toNat →
      (∃ t, exec (.shlv rd rs1 rs2) s = .next t ∧ FaultsWith .shiftRange 0#8 (encode (.shlv rd rs1 rs2)) s t) ∧
      (∃ t, exec (.shrv rd rs1 rs2) s = .next t ∧ FaultsWith .shiftRange 0#8 (encode (.shrv rd rs1 rs2)) s t))

/-- 43_shift.md R705: the equations of the limb-level form, n = 32q + s, and for every amount below 256 each of the four
shift commands gives its result, which ShiftByData and ShiftByRegister give as a number. -/
def Obligations.LimbShiftsRefineShifts : Prop :=
  (∀ (x : Value) (q s : Nat) (k : Fin 8), s < 32 →
    (limb (shiftLeftLimbs x (32 * q + s)) k).toNat =
      (limbOrZero x (k.val + q) * 2 ^ s + (if s = 0 then 0 else limbOrZero x (k.val + q + 1) / 2 ^ (32 - s))) % 2 ^ 32 ∧
    (limb (shiftRightLimbs x (32 * q + s)) k).toNat =
      limbOrZero x ((k.val : Int) - q) / 2 ^ s +
        (if s = 0 then 0 else limbOrZero x ((k.val : Int) - q - 1) * 2 ^ (32 - s) % 2 ^ 32)) ∧
  (∀ (rd rs1 rs2 : VReg) (s : State),
    (s.data.toNat < 256 →
      (∃ t, exec (.shl rd rs1) s = .next t ∧ t.readV rd = shiftLeftLimbs (s.readV rs1) s.data.toNat) ∧
      (∃ t, exec (.shr rd rs1) s = .next t ∧ t.readV rd = shiftRightLimbs (s.readV rs1) s.data.toNat)) ∧
    ((s.readV rs2).toNat < 256 →
      (∃ t, exec (.shlv rd rs1 rs2) s = .next t ∧ t.readV rd = shiftLeftLimbs (s.readV rs1) (s.readV rs2).toNat) ∧
      (∃ t, exec (.shrv rd rs1 rs2) s = .next t ∧ t.readV rd = shiftRightLimbs (s.readV rs1) (s.readV rs2).toNat)))

/-! ### Ordering -/

/-- 44_ordering.md R801 to R805, over the order of R800: the limb-wise comparison is the order of the numbers. -/
def Obligations.ComparisonsSetSR : Prop :=
  ∀ (rs1 rs2 : VReg) (s : State),
    (EncodedAs (.cmpeq rs1 rs2) 0x18#6 .ss ∧ ∃ t, exec (.cmpeq rs1 rs2) s = .next t ∧
      t.sr = (if s.readV rs1 = s.readV rs2 then 1#64 else 0#64) ∧ WritesOnlySR s t) ∧
    (EncodedAs (.cmplt rs1 rs2) 0x19#6 .ss ∧ ∃ t, exec (.cmplt rs1 rs2) s = .next t ∧
      t.sr = (if (s.readV rs1).toNat < (s.readV rs2).toNat then 1#64 else 0#64) ∧ WritesOnlySR s t) ∧
    (EncodedAs (.cmple rs1 rs2) 0x1A#6 .ss ∧ ∃ t, exec (.cmple rs1 rs2) s = .next t ∧
      t.sr = (if (s.readV rs1).toNat ≤ (s.readV rs2).toNat then 1#64 else 0#64) ∧ WritesOnlySR s t) ∧
    (EncodedAs (.cmpgt rs1 rs2) 0x1B#6 .ss ∧ ∃ t, exec (.cmpgt rs1 rs2) s = .next t ∧
      t.sr = (if (s.readV rs2).toNat < (s.readV rs1).toNat then 1#64 else 0#64) ∧ WritesOnlySR s t) ∧
    (EncodedAs (.cmpge rs1 rs2) 0x1C#6 .ss ∧ ∃ t, exec (.cmpge rs1 rs2) s = .next t ∧
      t.sr = (if (s.readV rs2).toNat ≤ (s.readV rs1).toNat then 1#64 else 0#64) ∧ WritesOnlySR s t)

/-- 44_ordering.md R800: eq and lt by limbs are equality and the order of the numbers, and lt is decided by the first unequal
limb. -/
def Obligations.LimbOrderIsNumericOrder : Prop :=
  ∀ a b : Value,
    (eqValue a b = true ↔ ∀ k, limb a k = limb b k) ∧ (eqValue a b = true ↔ a = b) ∧
    (ltValue a b = true ↔ a.toNat < b.toNat) ∧
    (ltValue a b = true ↔ ∃ k : Fin 8, (∀ j : Fin 8, j.val < k.val → limb a j = limb b j) ∧
      (limb a k).toNat < (limb b k).toNat)

/-- 44_ordering.md R806: for any two values the three commands CMPLT, CMPEQ and CMPGT give SR values summing to 1. -/
def Obligations.TrichotomyByCommands : Prop :=
  ∀ (rs1 rs2 : VReg) (s : State), ∃ t u w, exec (.cmplt rs1 rs2) s = .next t ∧ exec (.cmpeq rs1 rs2) t = .next u ∧
    exec (.cmpgt rs1 rs2) u = .next w ∧ t.sr.toNat + u.sr.toNat + w.sr.toNat = 1

/-! ### Hexadecimal text -/

/-- 45_hex.md R901: the checks of the text in their order, the lowest bad character, and that only HB[0..n-1] is examined. -/
def Obligations.HexTextChecks : Prop :=
  ∀ (rd : VReg) (s : State),
    (s.hexlen.toNat = 0 → ∃ t, exec (.hexparse rd) s = .next t ∧
      FaultsWith .hexEmpty 0#8 (encode (.hexparse rd)) s t) ∧
    (64 < s.hexlen.toNat → ∃ t, exec (.hexparse rd) s = .next t ∧
      FaultsWith .hexTooLong s.hexlen (encode (.hexparse rd)) s t) ∧
    (s.hexlen.toNat ≤ 64 → s.hexlen.toNat % 2 = 1 → ∃ t, exec (.hexparse rd) s = .next t ∧
      FaultsWith .hexOddLength s.hexlen (encode (.hexparse rd)) s t) ∧
    (∀ i, s.hexlen.toNat ≤ 64 → s.hexlen.toNat % 2 = 0 → i < s.hexlen.toNat → ¬ IsHexDigit (charAt s i) →
      (∀ j < i, IsHexDigit (charAt s j)) → ∃ t, exec (.hexparse rd) s = .next t ∧
        FaultsWith .hexBadChar (BitVec.ofNat 8 i) (encode (.hexparse rd)) s t) ∧
    (∀ hb : Vector Byte 64, (∀ i < s.hexlen.toNat, charAt { s with hexbuf := hb } i = charAt s i) →
      ∃ t, exec (.hexparse rd) s = .next t ∧
        exec (.hexparse rd) { s with hexbuf := hb } = .next { t with hexbuf := hb })

/-- 45_hex.md R902: the value a valid text denotes, with HEXBUF and HEXLEN unchanged; on any other text v[rd] keeps its
value. -/
def Obligations.HexparseGivesTextNumber : Prop :=
  ∀ (rd : VReg) (s : State), EncodedAs (.hexparse rd) 0x20#6 .d ∧
    (ValidText s → ∃ t, exec (.hexparse rd) s = .next t ∧ (t.readV rd).toNat = textNumber s ∧ WritesOnlyV [rd] s t) ∧
    (¬ ValidText s → ∃ t c info, exec (.hexparse rd) s = .next t ∧
      c ∈ [.hexEmpty, .hexTooLong, .hexOddLength, .hexBadChar] ∧ FaultsWith c info (encode (.hexparse rd)) s t)

/-- 45_hex.md R903: HB[i] is the lowercase digit of x[255-4i : 252-4i], and HEXLEN is 64. -/
def Obligations.HexfmtWritesDigits : Prop :=
  ∀ (rs1 : VReg) (s : State), EncodedAs (.hexfmt rs1) 0x21#6 .s ∧
    ∃ t, exec (.hexfmt rs1) s = .next t ∧ t.hexlen = 64#8 ∧ WritesOnlyText s t ∧
      ∀ i < 64, (charAt t i).toNat = hexCharCode ((s.readV rs1).toNat / 16 ^ (63 - i) % 16)

/-- 45_hex.md R904: format then parse gives the value back; parse then format gives the text padded with '0' to 64 characters,
its letters in lowercase. -/
def Obligations.HexRoundTrips : Prop :=
  (∀ (rd rs : VReg) (s : State), ∃ t u, exec (.hexfmt rs) s = .next t ∧ exec (.hexparse rd) t = .next u ∧
    u.status = s.status ∧ u.readV rd = s.readV rs) ∧
  (∀ (r : VReg) (s : State), ValidText s → ∃ t u, exec (.hexparse r) s = .next t ∧ exec (.hexfmt r) t = .next u ∧
    u.hexlen = 64#8 ∧ ∀ i < 64, charAt u i =
      if i < 64 - s.hexlen.toNat then 0x30#8 else lowercase (charAt s (i - (64 - s.hexlen.toNat))))

/-! ### Narrowing, trailing zeros, hash -/

/-- 46_convert_hash.md R1000, R1001; TRUNC64 after LDI64 returns DATA. -/
def Obligations.TruncationsTakeLowBits : Prop :=
  ∀ (rs1 : VReg) (s : State),
    (EncodedAs (.trunc32 rs1) 0x24#6 .s ∧ ∃ t, exec (.trunc32 rs1) s = .next t ∧
      t.sr.toNat = (s.readV rs1).toNat % 2 ^ 32 ∧ WritesOnlySR s t) ∧
    (EncodedAs (.trunc64 rs1) 0x25#6 .s ∧ ∃ t, exec (.trunc64 rs1) s = .next t ∧
      t.sr.toNat = (s.readV rs1).toNat % 2 ^ 64 ∧ WritesOnlySR s t) ∧
    (∃ t u, exec (.ldi64 rs1) s = .next t ∧ exec (.trunc64 rs1) t = .next u ∧ u.sr = s.data)

/-- 46_convert_hash.md R1002: the position of the lowest set bit, 256 for 0. -/
def Obligations.TrailingZeroCount : Prop :=
  ∀ (rs1 : VReg) (s : State), EncodedAs (.tzcnt rs1) 0x26#6 .s ∧
    ∃ t, exec (.tzcnt rs1) s = .next t ∧ WritesOnlySR s t ∧
      (s.readV rs1 = 0#256 → t.sr = 256#64) ∧
      (s.readV rs1 ≠ 0#256 → t.sr.toNat < 256 ∧ (s.readV rs1).getLsbD t.sr.toNat = true ∧
        ∀ j < t.sr.toNat, (s.readV rs1).getLsbD j = false)

/-- 46_convert_hash.md R1003: SR is HASHFN of the eight limbs, limb 0 first, so equal values give equal SR in any two states.
It holds for every HASHFN. That HASHFN is the same in any two states, and so across a reset too, is read from the spec by
inference (log entry 5); decision D20 and 93_implementation_defined.md I1 say a claim about the hardware should not compare hash
results taken across a reset. -/
def Obligations.HashDependsOnLimbsAlone : Prop :=
  ∀ (rs1 : VReg) (s : State), EncodedAs (.hash rs1) 0x27#6 .s ∧
    ∃ t, exec (.hash rs1) s = .next t ∧ WritesOnlySR s t ∧
      t.sr = Config.hashFn (Vector.ofFn fun k => limb (s.readV rs1) k) ∧
      ∀ (rs : VReg) (s' : State), s'.readV rs = s.readV rs1 → ∃ t', exec (.hash rs) s' = .next t' ∧ t'.sr = t.sr

/-! ### Whole-machine rules -/

/-- 10_state.md R103: a command writes no value register but its destinations, and what it does is the same whatever a
register it does not read holds. -/
def Obligations.CommandsUseOnlyTheirRegisters : Prop :=
  ∀ (i : Instr) (s : State) (r : VReg) (x : Value), ∃ t t', exec i s = .next t ∧ exec i (s.writeV r x) = .next t' ∧
    (r ∉ destRegs i → t.readV r = s.readV r) ∧
    (r ∉ sourceRegs i → t'.status = t.status ∧ t'.fcmd = t.fcmd ∧ t'.sr = t.sr ∧ t'.hexbuf = t.hexbuf ∧
      t'.hexlen = t.hexlen ∧ t'.ccnt = t.ccnt ∧ ∀ q, q ≠ r → t'.readV q = t.readV q)

/-- 10_state.md R106, R107: only the ten listed commands write SR and no command reads it; only the five listed commands read
DATA and no command writes it. -/
def Obligations.ScalarRegisterUse : Prop :=
  ∀ (i : Instr) (s : State) (x : Scalar), ∃ t, exec i s = .next t ∧ t.data = s.data ∧
    (writesSR i = false → t.sr = s.sr) ∧
    (∃ y, exec i { s with sr := x } = .next { t with sr := y } ∧ (t.ccnt ≠ s.ccnt → writesSR i = true → y = t.sr)) ∧
    (readsData i = false → exec i { s with data := x } = .next { t with data := x })

/-- 20_memory.md R210, 10_state.md R116 (derived): a command sees neither the inputs still to come nor the last response. -/
def Obligations.CommandsDoNotSeeThePort : Prop :=
  ∀ (i : Instr) (s : State) (q : List Input) (r : Option Response), ∃ t, exec i s = .next t ∧
    exec i { s with inputs := q, response := r } = .next { t with inputs := q, response := r }

/-- 10_state.md R113: CCNT counts a CMD write whose command completes without fault, modulo 2^32, and no other: a faulting
command and an ignored write leave it, and the host cannot write it. -/
def Obligations.CommandCounter : Prop :=
  (∀ (w : Word) (s : State), s.status.err = false → ∃ t, winWrite 0x00#8 w s = .next t ∧
    (t.status.err = false → t.ccnt.toNat = (s.ccnt.toNat + 1) % 2 ^ 32) ∧
    (t.status.err = true → t.ccnt = s.ccnt)) ∧
  (∀ (w : Word) (s : State), s.status.err = true → winWrite 0x00#8 w s = .next s) ∧
  (∀ (off : BitVec 8) (w : Word) (s t : State), wordOffset off ≠ 0x00#8 → wordOffset off ≠ 0x1C#8 →
    winWrite off w s = .next t → t.ccnt = s.ccnt) ∧
  State.reset.ccnt = 0#32

/-! ### The host's notation -/

/-- 30_encoding.md R331 (derived: the accesses of a line): outside the fault state, the accesses of a command with a scalar
operand put the operand into DATA and then run the command: its low half for LDI32 and LIMBWR, the whole of it for LDI64,
SHL and SHR. -/
def Obligations.IssuedScalarReachesCommand : Prop :=
  ∀ (i : Instr) (n width : Nat) (s : State), scalarWidth i = some width → n < 2 ^ width → s.status.err = false →
    ∃ t accesses, exec i { s with
        data := if width = 32 then s.data.extractLsb' 32 32 ++ BitVec.ofNat 32 n else BitVec.ofNat 64 n
        inputs := [] } = .next t ∧ issue i (some n) = some accesses ∧
      Sys2Proof.core.run accesses.length { s with inputs := accesses } = .next { t with response := some .completion }

/-- 30_encoding.md R332 (its first row): outside the fault state the accesses of LDI256 leave v[rd] = imm, the other value
registers, SR, the text and the fault record as they were, and CCNT up by 8. -/
def Obligations.Ldi256LoadsValue : Prop :=
  ∀ (rd : VReg) (imm : Value) (s : State), s.status.err = false →
    ∃ accesses t, expand (.ldi256 rd imm) = some accesses ∧
      Sys2Proof.core.run accesses.length { s with inputs := accesses } = .next t ∧
      t.readV rd = imm ∧ (∀ r, r ≠ rd → t.readV r = s.readV r) ∧ t.sr = s.sr ∧ t.hexbuf = s.hexbuf ∧
      t.hexlen = s.hexlen ∧ t.status = s.status ∧ t.fcmd = s.fcmd ∧ t.inputs = [] ∧
      t.ccnt.toNat = (s.ccnt.toNat + 8) % 2 ^ 32

/-! ### HASH without a comparison across a reset -/

/-- 46_convert_hash.md R1003: HASH gives HASHFN of the limbs, and two HASH commands one after the other, of registers that hold
equal values, give equal SR. It holds for every HASHFN, and no reset lies between the two. -/
def Obligations.HashTwiceGivesEqualSR : Prop :=
  ∀ (rs1 rs2 : VReg) (s : State), EncodedAs (.hash rs1) 0x27#6 .s ∧
    ∃ t u, exec (.hash rs1) s = .next t ∧ exec (.hash rs2) t = .next u ∧ WritesOnlySR s t ∧ WritesOnlySR t u ∧
      t.sr = Config.hashFn #v[limb (s.readV rs1) 0, limb (s.readV rs1) 1, limb (s.readV rs1) 2, limb (s.readV rs1) 3,
        limb (s.readV rs1) 4, limb (s.readV rs1) 5, limb (s.readV rs1) 6, limb (s.readV rs1) 7] ∧
      (s.readV rs1 = s.readV rs2 → u.sr = t.sr)
end

