-- ==== Sys2Proof/Laws/Encode.lean ====
section
/-! SUPPORT. The fields of a packed command word. -/

namespace Sys2Proof

variable (op : BitVec 6) (rd rs1 rs2 rd2 : Fin 16)

theorem pack_toNat : (pack op rd rs1 rs2 rd2).toNat =
    op.toNat * 2 ^ 26 + rd.val * 2 ^ 22 + rs1.val * 2 ^ 18 + rs2.val * 2 ^ 14 + rd2.val * 2 ^ 10 := by
  simp only [pack, toNat_append_eq, BitVec.toNat_ofFin, BitVec.toNat_ofNat]
  omega

@[simp] theorem opField_pack : opField (pack op rd rs1 rs2 rd2) = op := by
  apply BitVec.eq_of_toNat_eq
  rw [opField, toNat_field, pack_toNat]
  omega

@[simp] theorem fieldsOf_pack : fieldsOf (pack op rd rs1 rs2 rd2) = ⟨rd, rs1, rs2, rd2⟩ := by
  simp only [fieldsOf, regField, Fields.mk.injEq, Fin.ext_iff, BitVec.val_toFin, toNat_field, pack_toNat]
  refine ⟨?_, ?_, ?_, ?_⟩ <;> omega

/-! ### Masks (30_encoding.md R302) -/

theorem append_and {m n : Nat} {x a x' : BitVec m} {y b y' : BitVec n} (h : x &&& a = x') (k : y &&& b = y') :
    (x ++ y) &&& (a ++ b) = x' ++ y' := by
  rw [← h, ← k, BitVec.and_append]

/-- A mask that compares the opcode and the reserved bits acts on the four operand fields one by one. -/
theorem pack_and {a b c d a' b' c' d' : Fin 16} {ma mb mc md : BitVec 4}
    (ha : BitVec.ofFin (w := 4) a &&& ma = BitVec.ofFin (w := 4) a')
    (hb : BitVec.ofFin (w := 4) b &&& mb = BitVec.ofFin (w := 4) b')
    (hc : BitVec.ofFin (w := 4) c &&& mc = BitVec.ofFin (w := 4) c')
    (hd : BitVec.ofFin (w := 4) d &&& md = BitVec.ofFin (w := 4) d') :
    pack op a b c d &&& (0x3F#6 ++ ma ++ mb ++ mc ++ md ++ 0x3FF#10) = pack op a' b' c' d' :=
  append_and (append_and (append_and (append_and (append_and BitVec.and_allOnes ha) hb) hc) hd) (by decide)

theorem field_and_zero (a : Fin 16) : BitVec.ofFin (w := 4) a &&& 0#4 = BitVec.ofFin (w := 4) 0 := BitVec.and_zero

theorem zero_and_field (m : BitVec 4) : BitVec.ofFin (w := 4) 0 &&& m = BitVec.ofFin (w := 4) 0 := BitVec.zero_and

/-- The match value of an opcode is its word with every field 0 (30_encoding.md R302). -/
theorem opMatch_eq_pack : opMatch op = pack op 0 0 0 0 := by
  apply BitVec.eq_of_toNat_eq
  have := op.isLt
  rw [pack_toNat, opMatch, BitVec.toNat_shiftLeft, BitVec.toNat_setWidth, Nat.shiftLeft_eq]
  simp only [Fin.val_zero]
  omega

theorem pack_mask_n : pack op 0 0 0 0 &&& Format.mask .n = opMatch op :=
  (pack_and op (zero_and_field 0xF#4) (zero_and_field 0xF#4) (zero_and_field 0xF#4) (zero_and_field 0xF#4)).trans
    (opMatch_eq_pack op).symm

theorem pack_mask_d : pack op rd 0 0 0 &&& Format.mask .d = opMatch op :=
  (pack_and op (field_and_zero rd) (zero_and_field 0xF#4) (zero_and_field 0xF#4) (zero_and_field 0xF#4)).trans
    (opMatch_eq_pack op).symm

theorem pack_mask_ds : pack op rd rs1 0 0 &&& Format.mask .ds = opMatch op :=
  (pack_and op (field_and_zero rd) (field_and_zero rs1) (zero_and_field 0xF#4) (zero_and_field 0xF#4)).trans
    (opMatch_eq_pack op).symm

theorem pack_mask_dss : pack op rd rs1 rs2 0 &&& Format.mask .dss = opMatch op :=
  (pack_and op (field_and_zero rd) (field_and_zero rs1) (field_and_zero rs2) (zero_and_field 0xF#4)).trans
    (opMatch_eq_pack op).symm

theorem pack_mask_ddss : pack op rd rs1 rs2 rd2 &&& Format.mask .ddss = opMatch op :=
  (pack_and op (field_and_zero rd) (field_and_zero rs1) (field_and_zero rs2) (field_and_zero rd2)).trans
    (opMatch_eq_pack op).symm

theorem pack_mask_s : pack op 0 rs1 0 0 &&& Format.mask .s = opMatch op :=
  (pack_and op (zero_and_field 0xF#4) (field_and_zero rs1) (zero_and_field 0xF#4) (zero_and_field 0xF#4)).trans
    (opMatch_eq_pack op).symm

theorem pack_mask_ss : pack op 0 rs1 rs2 0 &&& Format.mask .ss = opMatch op :=
  (pack_and op (zero_and_field 0xF#4) (field_and_zero rs1) (field_and_zero rs2) (zero_and_field 0xF#4)).trans
    (opMatch_eq_pack op).symm

theorem pack_mask_si : pack op 0 rs1 rs2 0 &&& Format.mask .si = opMatch op :=
  (pack_and op (zero_and_field 0xF#4) (field_and_zero rs1) (field_and_zero rs2) (zero_and_field 0xF#4)).trans
    (opMatch_eq_pack op).symm

theorem pack_mask_di : pack op rd 0 rs2 0 &&& Format.mask .di = opMatch op :=
  (pack_and op (field_and_zero rd) (zero_and_field 0xF#4) (field_and_zero rs2) (zero_and_field 0xF#4)).trans
    (opMatch_eq_pack op).symm

end Sys2Proof
end

