-- ==== Sys2Proof/Laws/PerInstr.lean ====
section
/-! SUPPORT. A law of every instruction as syntax: its encoded word, under its format's mask, is its opcode's match value, as
a row of the opcode table has it (30_encoding.md R302, R310). -/

namespace Sys2Proof.Laws.EncodeMatchesFormat

/-- The encoded word agrees with the mask and match of the instruction's format and opcode. -/
def Statement (i : Instr) : Prop := encode i &&& i.format.mask = opMatch (opField (encode i))

theorem nop : Statement .nop := by
  rw [Statement, encode, opField_pack]
  exact pack_mask_n ..

theorem zero (rd : Fin 16) : Statement (.zero rd) := by
  rw [Statement, encode, opField_pack]
  exact pack_mask_d ..

theorem mov (rd rs1 : Fin 16) : Statement (.mov rd rs1) := by
  rw [Statement, encode, opField_pack]
  exact pack_mask_ds ..

theorem ldi32 (rd : Fin 16) : Statement (.ldi32 rd) := by
  rw [Statement, encode, opField_pack]
  exact pack_mask_d ..

theorem ldi64 (rd : Fin 16) : Statement (.ldi64 rd) := by
  rw [Statement, encode, opField_pack]
  exact pack_mask_d ..

theorem limbrd (rs1 idx : Fin 16) : Statement (.limbrd rs1 idx) := by
  rw [Statement, encode, opField_pack]
  exact pack_mask_si ..

theorem limbwr (rd idx : Fin 16) : Statement (.limbwr rd idx) := by
  rw [Statement, encode, opField_pack]
  exact pack_mask_di ..

theorem add (rd rs1 rs2 : Fin 16) : Statement (.add rd rs1 rs2) := by
  rw [Statement, encode, opField_pack]
  exact pack_mask_dss ..

theorem sub (rd rs1 rs2 : Fin 16) : Statement (.sub rd rs1 rs2) := by
  rw [Statement, encode, opField_pack]
  exact pack_mask_dss ..

theorem mul (rd rs1 rs2 : Fin 16) : Statement (.mul rd rs1 rs2) := by
  rw [Statement, encode, opField_pack]
  exact pack_mask_dss ..

theorem div (rd rs1 rs2 : Fin 16) : Statement (.div rd rs1 rs2) := by
  rw [Statement, encode, opField_pack]
  exact pack_mask_dss ..

theorem mod (rd rs1 rs2 : Fin 16) : Statement (.mod rd rs1 rs2) := by
  rw [Statement, encode, opField_pack]
  exact pack_mask_dss ..

theorem divmod (rd rd2 rs1 rs2 : Fin 16) : Statement (.divmod rd rd2 rs1 rs2) := by
  rw [Statement, encode, opField_pack]
  exact pack_mask_ddss ..

theorem and (rd rs1 rs2 : Fin 16) : Statement (.and rd rs1 rs2) := by
  rw [Statement, encode, opField_pack]
  exact pack_mask_dss ..

theorem or (rd rs1 rs2 : Fin 16) : Statement (.or rd rs1 rs2) := by
  rw [Statement, encode, opField_pack]
  exact pack_mask_dss ..

theorem xor (rd rs1 rs2 : Fin 16) : Statement (.xor rd rs1 rs2) := by
  rw [Statement, encode, opField_pack]
  exact pack_mask_dss ..

theorem not (rd rs1 : Fin 16) : Statement (.not rd rs1) := by
  rw [Statement, encode, opField_pack]
  exact pack_mask_ds ..

theorem shl (rd rs1 : Fin 16) : Statement (.shl rd rs1) := by
  rw [Statement, encode, opField_pack]
  exact pack_mask_ds ..

theorem shr (rd rs1 : Fin 16) : Statement (.shr rd rs1) := by
  rw [Statement, encode, opField_pack]
  exact pack_mask_ds ..

theorem shlv (rd rs1 rs2 : Fin 16) : Statement (.shlv rd rs1 rs2) := by
  rw [Statement, encode, opField_pack]
  exact pack_mask_dss ..

theorem shrv (rd rs1 rs2 : Fin 16) : Statement (.shrv rd rs1 rs2) := by
  rw [Statement, encode, opField_pack]
  exact pack_mask_dss ..

theorem cmpeq (rs1 rs2 : Fin 16) : Statement (.cmpeq rs1 rs2) := by
  rw [Statement, encode, opField_pack]
  exact pack_mask_ss ..

theorem cmplt (rs1 rs2 : Fin 16) : Statement (.cmplt rs1 rs2) := by
  rw [Statement, encode, opField_pack]
  exact pack_mask_ss ..

theorem cmple (rs1 rs2 : Fin 16) : Statement (.cmple rs1 rs2) := by
  rw [Statement, encode, opField_pack]
  exact pack_mask_ss ..

theorem cmpgt (rs1 rs2 : Fin 16) : Statement (.cmpgt rs1 rs2) := by
  rw [Statement, encode, opField_pack]
  exact pack_mask_ss ..

theorem cmpge (rs1 rs2 : Fin 16) : Statement (.cmpge rs1 rs2) := by
  rw [Statement, encode, opField_pack]
  exact pack_mask_ss ..

theorem hexparse (rd : Fin 16) : Statement (.hexparse rd) := by
  rw [Statement, encode, opField_pack]
  exact pack_mask_d ..

theorem hexfmt (rs1 : Fin 16) : Statement (.hexfmt rs1) := by
  rw [Statement, encode, opField_pack]
  exact pack_mask_s ..

theorem trunc32 (rs1 : Fin 16) : Statement (.trunc32 rs1) := by
  rw [Statement, encode, opField_pack]
  exact pack_mask_s ..

theorem trunc64 (rs1 : Fin 16) : Statement (.trunc64 rs1) := by
  rw [Statement, encode, opField_pack]
  exact pack_mask_s ..

theorem tzcnt (rs1 : Fin 16) : Statement (.tzcnt rs1) := by
  rw [Statement, encode, opField_pack]
  exact pack_mask_s ..

theorem hash (rs1 : Fin 16) : Statement (.hash rs1) := by
  rw [Statement, encode, opField_pack]
  exact pack_mask_s ..

end Sys2Proof.Laws.EncodeMatchesFormat
end

