-- ==== Sys2Proof/Laws/Decode.lean ====
section
/-! SUPPORT. The decoder's laws: the row of an encoded instruction, and what a word that decodes is. -/

namespace Sys2Proof

/-- The opcode map gives an encoded instruction its own row (30_encoding.md R310). -/
theorem encode_row (i : Instr) : ∃ row, opcodeRow (opField (encode i)) = some row ∧ row.fmt = i.format ∧
    row.build (fieldsOf (encode i)) = i := by
  cases i <;> (simp only [encode, opField_pack, fieldsOf_pack]; exact ⟨_, rfl, rfl, rfl⟩)

/-- Every encoded word agrees with its format's mask and its opcode's match (30_encoding.md R302). -/
theorem encode_mask (i : Instr) : encode i &&& i.format.mask = opMatch (opField (encode i)) := by
  cases i with
  | nop => exact Laws.EncodeMatchesFormat.nop
  | zero => exact Laws.EncodeMatchesFormat.zero ..
  | mov => exact Laws.EncodeMatchesFormat.mov ..
  | ldi32 => exact Laws.EncodeMatchesFormat.ldi32 ..
  | ldi64 => exact Laws.EncodeMatchesFormat.ldi64 ..
  | limbrd => exact Laws.EncodeMatchesFormat.limbrd ..
  | limbwr => exact Laws.EncodeMatchesFormat.limbwr ..
  | add => exact Laws.EncodeMatchesFormat.add ..
  | sub => exact Laws.EncodeMatchesFormat.sub ..
  | mul => exact Laws.EncodeMatchesFormat.mul ..
  | div => exact Laws.EncodeMatchesFormat.div ..
  | mod => exact Laws.EncodeMatchesFormat.mod ..
  | divmod => exact Laws.EncodeMatchesFormat.divmod ..
  | and => exact Laws.EncodeMatchesFormat.and ..
  | or => exact Laws.EncodeMatchesFormat.or ..
  | xor => exact Laws.EncodeMatchesFormat.xor ..
  | not => exact Laws.EncodeMatchesFormat.not ..
  | shl => exact Laws.EncodeMatchesFormat.shl ..
  | shr => exact Laws.EncodeMatchesFormat.shr ..
  | shlv => exact Laws.EncodeMatchesFormat.shlv ..
  | shrv => exact Laws.EncodeMatchesFormat.shrv ..
  | cmpeq => exact Laws.EncodeMatchesFormat.cmpeq ..
  | cmplt => exact Laws.EncodeMatchesFormat.cmplt ..
  | cmple => exact Laws.EncodeMatchesFormat.cmple ..
  | cmpgt => exact Laws.EncodeMatchesFormat.cmpgt ..
  | cmpge => exact Laws.EncodeMatchesFormat.cmpge ..
  | hexparse => exact Laws.EncodeMatchesFormat.hexparse ..
  | hexfmt => exact Laws.EncodeMatchesFormat.hexfmt ..
  | trunc32 => exact Laws.EncodeMatchesFormat.trunc32 ..
  | trunc64 => exact Laws.EncodeMatchesFormat.trunc64 ..
  | tzcnt => exact Laws.EncodeMatchesFormat.tzcnt ..
  | hash => exact Laws.EncodeMatchesFormat.hash ..

/-- A word is its fields and its reserved bits (30_encoding.md R301). -/
theorem word_split (w : Word) : w = opField w ++ BitVec.ofFin (w := 4) (regField w 22) ++
    BitVec.ofFin (w := 4) (regField w 18) ++ BitVec.ofFin (w := 4) (regField w 14) ++
    BitVec.ofFin (w := 4) (regField w 10) ++ w.extractLsb' 0 10 := by
  apply BitVec.eq_of_toNat_eq
  simp only [toNat_append_eq, opField, regField, BitVec.ofFin_toFin, toNat_field]
  have := w.isLt
  omega

/-- A word that decodes agrees with its row's mask, and the row builds a well-formed instruction from its fields. -/
theorem decode_ok {w : Word} {i : Instr} (h : decode w = .ok i) :
    ∃ row ∈ opcodeTable, row.op = opField w ∧ w &&& row.fmt.mask = opMatch (opField w) ∧
      row.build (fieldsOf w) = i ∧ i.wf = true := by
  unfold decode at h
  cases hr : opcodeRow (opField w) with
  | none => simp [hr] at h
  | some row =>
    simp only [hr] at h
    split at h
    · next hm =>
      split at h
      · next hw =>
        obtain rfl := Except.ok.inj h
        have hop := List.find?_some hr
        exact ⟨row, List.mem_of_find?_eq_some hr, by simpa using hop, hm, rfl, hw⟩
      · cases h
    · cases h

end Sys2Proof
end

