-- ==== Sys2Proof/Laws/State.lean ====
section
/-! SUPPORT. One lemma per field per update of State, so that no later proof unfolds a record update, and the laws of
reading value registers. -/

namespace Sys2Proof.Machine

variable (s : State)

/-! ### writeV -/

@[simp] theorem State.writeV_v (r : VReg) (x : Value) : (s.writeV r x).v = s.v.set r x := rfl
@[simp] theorem State.writeV_sr (r : VReg) (x : Value) : (s.writeV r x).sr = s.sr := rfl
@[simp] theorem State.writeV_data (r : VReg) (x : Value) : (s.writeV r x).data = s.data := rfl
@[simp] theorem State.writeV_hexbuf (r : VReg) (x : Value) : (s.writeV r x).hexbuf = s.hexbuf := rfl
@[simp] theorem State.writeV_hexlen (r : VReg) (x : Value) : (s.writeV r x).hexlen = s.hexlen := rfl
@[simp] theorem State.writeV_status (r : VReg) (x : Value) : (s.writeV r x).status = s.status := rfl
@[simp] theorem State.writeV_fcmd (r : VReg) (x : Value) : (s.writeV r x).fcmd = s.fcmd := rfl
@[simp] theorem State.writeV_ccnt (r : VReg) (x : Value) : (s.writeV r x).ccnt = s.ccnt := rfl
@[simp] theorem State.writeV_inputs (r : VReg) (x : Value) : (s.writeV r x).inputs = s.inputs := rfl
@[simp] theorem State.writeV_response (r : VReg) (x : Value) : (s.writeV r x).response = s.response := rfl

/-- A written value register reads as written. -/
@[simp] theorem State.writeV_readV_self (r : VReg) (x : Value) : (s.writeV r x).readV r = x := by
  simp [State.readV, State.writeV]

/-- Writing one value register never changes another (10_state.md R102). -/
theorem State.writeV_readV_of_ne {r q : VReg} (x : Value) (h : q ≠ r) : (s.writeV r x).readV q = s.readV q := by
  have : r.val ≠ q.val := fun e => h (Fin.ext e.symm)
  simp [State.readV, State.writeV, Vector.getElem_set_ne _ _ this]

/-- Both cases at once. -/
theorem State.writeV_readV (r q : VReg) (x : Value) :
    (s.writeV r x).readV q = if q = r then x else s.readV q := by
  split
  · next h => subst h; exact s.writeV_readV_self q x
  · next h => exact s.writeV_readV_of_ne x h

/-! ### writeSR -/

@[simp] theorem State.writeSR_v (x : Scalar) : (s.writeSR x).v = s.v := rfl
@[simp] theorem State.writeSR_sr (x : Scalar) : (s.writeSR x).sr = x := rfl
@[simp] theorem State.writeSR_data (x : Scalar) : (s.writeSR x).data = s.data := rfl
@[simp] theorem State.writeSR_hexbuf (x : Scalar) : (s.writeSR x).hexbuf = s.hexbuf := rfl
@[simp] theorem State.writeSR_hexlen (x : Scalar) : (s.writeSR x).hexlen = s.hexlen := rfl
@[simp] theorem State.writeSR_status (x : Scalar) : (s.writeSR x).status = s.status := rfl
@[simp] theorem State.writeSR_fcmd (x : Scalar) : (s.writeSR x).fcmd = s.fcmd := rfl
@[simp] theorem State.writeSR_ccnt (x : Scalar) : (s.writeSR x).ccnt = s.ccnt := rfl
@[simp] theorem State.writeSR_inputs (x : Scalar) : (s.writeSR x).inputs = s.inputs := rfl
@[simp] theorem State.writeSR_response (x : Scalar) : (s.writeSR x).response = s.response := rfl
@[simp] theorem State.writeSR_readV (x : Scalar) (q : VReg) : (s.writeSR x).readV q = s.readV q := rfl

/-! ### writeText -/

@[simp] theorem State.writeText_v (hb : Vector Byte 64) (n : Byte) : (s.writeText hb n).v = s.v := rfl
@[simp] theorem State.writeText_sr (hb : Vector Byte 64) (n : Byte) : (s.writeText hb n).sr = s.sr := rfl
@[simp] theorem State.writeText_data (hb : Vector Byte 64) (n : Byte) : (s.writeText hb n).data = s.data := rfl
@[simp] theorem State.writeText_hexbuf (hb : Vector Byte 64) (n : Byte) : (s.writeText hb n).hexbuf = hb := rfl
@[simp] theorem State.writeText_hexlen (hb : Vector Byte 64) (n : Byte) : (s.writeText hb n).hexlen = n := rfl
@[simp] theorem State.writeText_status (hb : Vector Byte 64) (n : Byte) : (s.writeText hb n).status = s.status := rfl
@[simp] theorem State.writeText_fcmd (hb : Vector Byte 64) (n : Byte) : (s.writeText hb n).fcmd = s.fcmd := rfl
@[simp] theorem State.writeText_ccnt (hb : Vector Byte 64) (n : Byte) : (s.writeText hb n).ccnt = s.ccnt := rfl
@[simp] theorem State.writeText_inputs (hb : Vector Byte 64) (n : Byte) : (s.writeText hb n).inputs = s.inputs := rfl
@[simp] theorem State.writeText_response (hb : Vector Byte 64) (n : Byte) : (s.writeText hb n).response = s.response := rfl
@[simp] theorem State.writeText_readV (hb : Vector Byte 64) (n : Byte) (q : VReg) : (s.writeText hb n).readV q = s.readV q := rfl

/-! ### countCommand -/

@[simp] theorem State.countCommand_v : (s.countCommand).v = s.v := rfl
@[simp] theorem State.countCommand_sr : (s.countCommand).sr = s.sr := rfl
@[simp] theorem State.countCommand_data : (s.countCommand).data = s.data := rfl
@[simp] theorem State.countCommand_hexbuf : (s.countCommand).hexbuf = s.hexbuf := rfl
@[simp] theorem State.countCommand_hexlen : (s.countCommand).hexlen = s.hexlen := rfl
@[simp] theorem State.countCommand_status : (s.countCommand).status = s.status := rfl
@[simp] theorem State.countCommand_fcmd : (s.countCommand).fcmd = s.fcmd := rfl
@[simp] theorem State.countCommand_ccnt : (s.countCommand).ccnt = s.ccnt + 1#32 := rfl
@[simp] theorem State.countCommand_inputs : (s.countCommand).inputs = s.inputs := rfl
@[simp] theorem State.countCommand_response : (s.countCommand).response = s.response := rfl
@[simp] theorem State.countCommand_readV (q : VReg) : (s.countCommand).readV q = s.readV q := rfl

/-! ### faultEntry -/

@[simp] theorem faultEntry_v (c : Cause) (info : Byte) (w : Word) : (faultEntry c info w s).v = s.v := rfl
@[simp] theorem faultEntry_sr (c : Cause) (info : Byte) (w : Word) : (faultEntry c info w s).sr = s.sr := rfl
@[simp] theorem faultEntry_data (c : Cause) (info : Byte) (w : Word) : (faultEntry c info w s).data = s.data := rfl
@[simp] theorem faultEntry_hexbuf (c : Cause) (info : Byte) (w : Word) : (faultEntry c info w s).hexbuf = s.hexbuf := rfl
@[simp] theorem faultEntry_hexlen (c : Cause) (info : Byte) (w : Word) : (faultEntry c info w s).hexlen = s.hexlen := rfl
@[simp] theorem faultEntry_status (c : Cause) (info : Byte) (w : Word) : (faultEntry c info w s).status = { err := true, cause := c.code, finfo := info } := rfl
@[simp] theorem faultEntry_fcmd (c : Cause) (info : Byte) (w : Word) : (faultEntry c info w s).fcmd = w := rfl
@[simp] theorem faultEntry_ccnt (c : Cause) (info : Byte) (w : Word) : (faultEntry c info w s).ccnt = s.ccnt := rfl
@[simp] theorem faultEntry_inputs (c : Cause) (info : Byte) (w : Word) : (faultEntry c info w s).inputs = s.inputs := rfl
@[simp] theorem faultEntry_response (c : Cause) (info : Byte) (w : Word) : (faultEntry c info w s).response = s.response := rfl
@[simp] theorem faultEntry_readV (c : Cause) (info : Byte) (w : Word) (q : VReg) : (faultEntry c info w s).readV q = s.readV q := rfl

/-! ### resetBlock -/

@[simp] theorem resetBlock_v : (resetBlock s).v = State.reset.v := rfl
@[simp] theorem resetBlock_sr : (resetBlock s).sr = State.reset.sr := rfl
@[simp] theorem resetBlock_data : (resetBlock s).data = State.reset.data := rfl
@[simp] theorem resetBlock_hexbuf : (resetBlock s).hexbuf = State.reset.hexbuf := rfl
@[simp] theorem resetBlock_hexlen : (resetBlock s).hexlen = State.reset.hexlen := rfl
@[simp] theorem resetBlock_status : (resetBlock s).status = State.reset.status := rfl
@[simp] theorem resetBlock_fcmd : (resetBlock s).fcmd = State.reset.fcmd := rfl
@[simp] theorem resetBlock_ccnt : (resetBlock s).ccnt = State.reset.ccnt := rfl
@[simp] theorem resetBlock_inputs : (resetBlock s).inputs = s.inputs := rfl
@[simp] theorem resetBlock_response : (resetBlock s).response = s.response := rfl

@[simp] theorem reset_readV (r : VReg) : State.reset.readV r = 0#256 := by
  simp [State.readV, State.reset]

@[simp] theorem resetBlock_readV (r : VReg) : (resetBlock s).readV r = 0#256 := reset_readV r

@[simp] theorem reset_hexbuf (i : Fin 64) : State.reset.hexbuf[i] = 0#8 := by
  simp [State.reset]

/-- Two register files that read alike are equal. -/
theorem State.v_eq_of_readV {s t : State} (h : ∀ r, s.readV r = t.readV r) : s.v = t.v := by
  apply Vector.ext
  intro i hi
  exact h ⟨i, hi⟩

end Sys2Proof.Machine
end

