-- ==== Sys2Proof/Laws/Limbs.lean ====
section
/-! SUPPORT. The limb view of a value (00_scope.md R10): a value is its limbs, and limbs are its bits. -/

namespace Sys2Proof.Machine

/-- A limb as a number. -/
theorem limb_toNat (x : Value) (k : Fin 8) : (limb x k).toNat = x.toNat / 2 ^ (224 - 32 * k.val) % 2 ^ 32 :=
  toNat_field x _ 32

/-- The eight limbs as numbers. -/
theorem limbs_eq (x : Value) : (limbs x).map BitVec.toNat =
    [x.toNat / 2 ^ 224 % 2 ^ 32, x.toNat / 2 ^ 192 % 2 ^ 32, x.toNat / 2 ^ 160 % 2 ^ 32, x.toNat / 2 ^ 128 % 2 ^ 32,
      x.toNat / 2 ^ 96 % 2 ^ 32, x.toNat / 2 ^ 64 % 2 ^ 32, x.toNat / 2 ^ 32 % 2 ^ 32, x.toNat / 2 ^ 0 % 2 ^ 32] := by
  simp only [limbs, List.map_cons, List.map_nil, limb_toNat]
  rfl

theorem limbs_length (x : Value) : (limbs x).length = 8 := rfl

/-- Σ l_k · 2^(32·(7−k)) (00_scope.md R10). -/
theorem ofLimbs_toNat (a b c d e f g h : Limb) : (ofLimbs [a, b, c, d, e, f, g, h]).toNat =
    a.toNat * 2 ^ 224 + b.toNat * 2 ^ 192 + c.toNat * 2 ^ 160 + d.toNat * 2 ^ 128 + e.toNat * 2 ^ 96
      + f.toNat * 2 ^ 64 + g.toNat * 2 ^ 32 + h.toNat := by
  simp only [ofLimbs, List.foldl_cons, List.foldl_nil, BitVec.toNat_ofNat]
  omega

/-- A value is the limbs read from it. -/
theorem ofLimbs_limbs (x : Value) : ofLimbs (limbs x) = x := by
  apply BitVec.eq_of_toNat_eq
  have h := limbs_eq x
  simp only [limbs, List.map_cons, List.map_nil, List.cons.injEq, and_true] at h
  obtain ⟨h0, h1, h2, h3, h4, h5, h6, h7⟩ := h
  rw [limbs, ofLimbs_toNat, h0, h1, h2, h3, h4, h5, h6, h7]
  have := x.isLt
  omega

/-- Reading the limbs of a value built from limbs gives them back. -/
theorem limbs_ofLimbs (a b c d e f g h : Limb) :
    limbs (ofLimbs [a, b, c, d, e, f, g, h]) = [a, b, c, d, e, f, g, h] := by
  have ha := a.isLt; have hb := b.isLt; have hc := c.isLt; have hd := d.isLt
  have he := e.isLt; have hf := f.isLt; have hg := g.isLt; have hh := h.isLt
  have inj : Function.Injective (List.map (BitVec.toNat (w := 32))) :=
    List.map_injective_iff.mpr fun _ _ => BitVec.eq_of_toNat_eq
  apply inj
  rw [limbs_eq, ofLimbs_toNat]
  simp only [List.map_cons, List.map_nil, List.cons.injEq, and_true]
  refine ⟨?_, ?_, ?_, ?_, ?_, ?_, ?_, ?_⟩ <;> omega

/-- The limb of a value is the entry of its limb list. -/
theorem limbs_getElem? (x : Value) (k : Fin 8) : (limbs x)[k.val]? = some (limb x k) := by
  fin_cases k <;> rfl

/-- Two values with the same limbs are equal. -/
theorem eq_of_limbs_eq {x y : Value} (h : limbs x = limbs y) : x = y := by
  rw [← ofLimbs_limbs x, h, ofLimbs_limbs]

/-- Writing limb k changes limb k and no other (00_scope.md R11). -/
theorem limb_setLimb (x : Value) (k j : Fin 8) (y : Limb) :
    limb (setLimb x k y) j = if j = k then y else limb x j := by
  have h : limbs (setLimb x k y) = (limbs x).set k.val y := by
    unfold setLimb limbs
    fin_cases k <;> exact limbs_ofLimbs _ _ _ _ _ _ _ _
  have hj := limbs_getElem? (setLimb x k y) j
  rw [h, List.getElem?_set, limbs_getElem?, limbs_length] at hj
  have hk := k.isLt
  split at hj
  · next e => simpa [Fin.ext_iff, e.symm, hk] using hj.symm
  · next e => simpa [Fin.ext_iff, Ne.symm e] using hj.symm

end Sys2Proof.Machine
end

