-- ==== Sys2Proof/Laws/Values.lean ====
section
/-! SUPPORT. What the loops of the value operations compute: the sums and differences carried through lists of limbs, the
limb-wise operations bit by bit, and the order of limb lists. -/

namespace Sys2Proof.Machine

/-! ### Lists of limbs as numbers -/

/-- The number a list of limbs stands for, most significant first. -/
def limbSum (ls : List Limb) : Nat := ls.foldl (fun n l => n * 2 ^ 32 + l.toNat) 0

@[simp] theorem limbSum_nil : limbSum [] = 0 := rfl

theorem limbFold_eq (ls : List Limb) (n : Nat) :
    ls.foldl (fun n l => n * 2 ^ 32 + l.toNat) n = n * (2 ^ 32) ^ ls.length + limbSum ls := by
  induction ls generalizing n with
  | nil => simp
  | cons l ls ih =>
    have h := ih (0 * 2 ^ 32 + l.toNat)
    rw [limbSum, List.foldl_cons, List.foldl_cons, ih, h, List.length_cons, Nat.pow_succ _ ls.length]
    ring

@[simp] theorem limbSum_cons (l : Limb) (ls : List Limb) :
    limbSum (l :: ls) = l.toNat * (2 ^ 32) ^ ls.length + limbSum ls := by
  rw [limbSum, List.foldl_cons, limbFold_eq]
  simp

theorem ofLimbs_eq (ls : List Limb) : ofLimbs ls = BitVec.ofNat 256 (limbSum ls) := rfl

theorem limbSum_lt (ls : List Limb) : limbSum ls < (2 ^ 32) ^ ls.length := by
  induction ls with
  | nil => simp
  | cons l ls ih =>
    rw [limbSum_cons, List.length_cons, Nat.pow_succ _ ls.length]
    have h := Nat.mul_le_mul_right ((2 ^ 32) ^ ls.length) (Nat.succ_le_of_lt l.isLt)
    rw [Nat.succ_mul] at h
    omega

/-- A value's limbs stand for the value (10_state.md R101). -/
theorem limbSum_limbs (x : Value) : limbSum (limbs x) = x.toNat := by
  have h := congrArg BitVec.toNat (ofLimbs_limbs x)
  rw [ofLimbs_eq, BitVec.toNat_ofNat] at h
  have := limbSum_lt (limbs x)
  rw [limbs_length] at this
  rw [Nat.mod_eq_of_lt (by omega)] at h
  exact h

/-! ### ADD and SUB -/

/-- One turn of ADD's loop adds two limbs and the carry exactly. -/
theorem addLimbStep_spec (a b : Limb) (acc : List Limb × BitVec 1) :
    ∃ l c, addLimbStep (a, b) acc = (l :: acc.1, c) ∧
      c.toNat * 2 ^ 32 + l.toNat = a.toNat + b.toNat + acc.2.toNat := by
  refine ⟨_, _, rfl, ?_⟩
  have := a.isLt
  have := b.isLt
  have := acc.2.isLt
  simp only [toNat_field, BitVec.toNat_add, BitVec.truncate_eq_setWidth, BitVec.toNat_setWidth]
  omega

/-- ADD's loop keeps: the carry and the limbs so far stand for the sum of the limbs so far. -/
theorem addLoop_spec (as bs : List Limb) (h : as.length = bs.length) :
    let r := (as.zip bs).foldr addLimbStep ([], 0#1)
    r.1.length = as.length ∧ r.2.toNat * (2 ^ 32) ^ as.length + limbSum r.1 = limbSum as + limbSum bs := by
  induction as generalizing bs with
  | nil =>
    cases bs with
    | nil => simp
    | cons _ _ => simp at h
  | cons a as ih =>
    cases bs with
    | nil => simp at h
    | cons b bs =>
      obtain ⟨hl, hs⟩ := ih bs (by simpa using h)
      simp only [List.zip_cons_cons, List.foldr_cons]
      obtain ⟨l, c, he, hc⟩ := addLimbStep_spec a b ((as.zip bs).foldr addLimbStep ([], 0#1))
      have hb : bs.length = as.length := by simpa using h.symm
      rw [he]
      refine ⟨by simp [hl], ?_⟩
      have hp : (2 ^ 32 : Nat) ^ (as.length + 1) = (2 ^ 32) ^ as.length * 2 ^ 32 := rfl
      simp only [limbSum_cons, List.length_cons, hl, hb]
      rw [hp]
      linear_combination hs + (2 ^ 32) ^ as.length * hc

/-- ADD's loop computes (a + b) mod 2^256 (41_arithmetic.md R500). -/
theorem addValue_toNat (a b : Value) : (addValue a b).toNat = (a.toNat + b.toNat) % 2 ^ 256 := by
  obtain ⟨hl, hs⟩ := addLoop_spec (limbs a) (limbs b) ((limbs_length a).trans (limbs_length b).symm)
  rw [limbSum_limbs, limbSum_limbs, limbs_length] at hs
  rw [addValue, ofLimbs_eq, BitVec.toNat_ofNat, ← hs]
  omega

/-- One turn of SUB's loop subtracts a limb and the borrow exactly. -/
theorem subLimbStep_spec (a b : Limb) (acc : List Limb × Int) (hb : acc.2 = 0 ∨ acc.2 = 1) :
    ∃ l c, subLimbStep (a, b) acc = (l :: acc.1, c) ∧ (c = 0 ∨ c = 1) ∧
      (l.toNat : Int) = a.toNat - b.toNat - acc.2 + c * 2 ^ 32 := by
  have := a.isLt
  have := b.isLt
  unfold subLimbStep
  simp only
  split
  · refine ⟨_, _, rfl, .inr rfl, ?_⟩
    rw [BitVec.toNat_ofInt]
    omega
  · refine ⟨_, _, rfl, .inl rfl, ?_⟩
    rw [BitVec.toNat_ofInt]
    omega

/-- SUB's loop keeps: the limbs so far stand for the difference of the limbs so far, up to the borrow. -/
theorem subLoop_spec (as bs : List Limb) (h : as.length = bs.length) :
    let r := (as.zip bs).foldr subLimbStep ([], 0)
    r.1.length = as.length ∧ (r.2 = 0 ∨ r.2 = 1) ∧
      (limbSum r.1 : Int) = limbSum as - limbSum bs + r.2 * (2 ^ 32) ^ as.length := by
  induction as generalizing bs with
  | nil =>
    cases bs with
    | nil => simp
    | cons _ _ => simp at h
  | cons a as ih =>
    cases bs with
    | nil => simp at h
    | cons b bs =>
      obtain ⟨hl, hr, hs⟩ := ih bs (by simpa using h)
      simp only [List.zip_cons_cons, List.foldr_cons]
      obtain ⟨l, c, he, hc, hd⟩ := subLimbStep_spec a b ((as.zip bs).foldr subLimbStep ([], 0)) hr
      have hb : bs.length = as.length := by simpa using h.symm
      rw [he]
      refine ⟨by simp [hl], hc, ?_⟩
      have hp : (2 ^ 32 : Int) ^ (as.length + 1) = (2 ^ 32) ^ as.length * 2 ^ 32 := pow_succ _ _
      simp only [limbSum_cons, List.length_cons, hl, hb]
      rw [hp]
      push_cast
      linear_combination hs + (2 ^ 32) ^ as.length * hd

/-- SUB's loop computes (a - b) mod 2^256 (41_arithmetic.md R501). -/
theorem subValue_toNat (a b : Value) : (subValue a b).toNat = (2 ^ 256 + a.toNat - b.toNat) % 2 ^ 256 := by
  obtain ⟨hl, hr, hs⟩ := subLoop_spec (limbs a) (limbs b) ((limbs_length a).trans (limbs_length b).symm)
  rw [limbSum_limbs, limbSum_limbs, limbs_length] at hs
  rw [subValue, ofLimbs_eq, BitVec.toNat_ofNat]
  have := a.isLt
  have := b.isLt
  have hlt := limbSum_lt (((limbs a).zip (limbs b)).foldr subLimbStep ([], 0)).1
  rw [hl, limbs_length] at hlt
  generalize (((limbs a).zip (limbs b)).foldr subLimbStep ([], 0)) = r at *
  rcases hr with hr | hr <;> rw [hr] at hs <;> omega

/-! ### MUL, DIV, MOD and the shifts -/

theorem mulValue_toNat (a b : Value) : (mulValue a b).toNat = a.toNat * b.toNat % 2 ^ 256 := rfl

theorem quotient_toNat (a b : Value) : (quotient a b).toNat = a.toNat / b.toNat := by
  have := Nat.div_le_self a.toNat b.toNat
  have := a.isLt
  rw [quotient, BitVec.toNat_ofNat, Nat.mod_eq_of_lt (by omega)]

theorem remainder_toNat (a b : Value) : (remainder a b).toNat = a.toNat % b.toNat := by
  have := a.isLt
  have h := Nat.div_add_mod a.toNat b.toNat
  rw [Nat.mul_comm] at h
  rw [remainder, BitVec.toNat_ofNat, Nat.mod_eq_of_lt (by omega)]
  omega

theorem shiftLeft_toNat (x : Value) (n : Nat) : (shiftLeft x n).toNat = x.toNat * 2 ^ n % 2 ^ 256 := by
  unfold shiftLeft
  split
  · next h =>
    obtain ⟨k, rfl⟩ := Nat.exists_eq_add_of_le h
    rw [Nat.pow_add, ← Nat.mul_assoc, Nat.mul_right_comm, Nat.mul_mod_left]
    rfl
  · rw [BitVec.toNat_ofNat]

theorem shiftRight_toNat (x : Value) (n : Nat) : (shiftRight x n).toNat = x.toNat / 2 ^ n := by
  unfold shiftRight
  split
  · next h =>
    have hle : 2 ^ 256 ≤ 2 ^ n := Nat.pow_le_pow_right (by decide) h
    rw [Nat.div_eq_of_lt (lt_of_lt_of_le x.isLt hle)]
    rfl
  · have := Nat.div_le_self x.toNat (2 ^ n)
    have := x.isLt
    rw [BitVec.toNat_ofNat, Nat.mod_eq_of_lt (by omega)]

/-! ### Bitwise logic -/

theorem limbs_limbwise (f : Limb → Limb → Limb) (a b : Value) :
    limbs (limbwise f a b) = List.zipWith f (limbs a) (limbs b) := limbs_ofLimbs _ _ _ _ _ _ _ _

theorem limbs_complementValue (a : Value) :
    limbs (complementValue a) = (limbs a).map (fun l => l ^^^ 0xFFFFFFFF#32) := limbs_ofLimbs _ _ _ _ _ _ _ _

/-- A limb-wise operation that is a bit-wise operation of the whole value on every field is that operation. -/
theorem limbwise_eq {f : Limb → Limb → Limb} {g : Value → Value → Value} (a b : Value)
    (h : ∀ k : Fin 8, limb (g a b) k = f (limb a k) (limb b k)) : limbwise f a b = g a b := by
  apply eq_of_limbs_eq
  rw [limbs_limbwise]
  simp only [limbs, List.zipWith_cons_cons, List.zipWith_nil_left, h]

/-! ### Ordering -/

theorem eqLimbs_iff (as bs : List Limb) : eqLimbs as bs = true ↔ as = bs := by
  induction as generalizing bs with
  | nil => cases bs <;> simp [eqLimbs]
  | cons a as ih => cases bs <;> simp [eqLimbs, ih]

/-- Equality limb by limb is equality (44_ordering.md R800). -/
theorem eqValue_iff (a b : Value) : eqValue a b = true ↔ a = b := by
  rw [eqValue, eqLimbs_iff]
  exact ⟨eq_of_limbs_eq, congrArg limbs⟩

/-- The first unequal pair decides as the numbers do (44_ordering.md R800). -/
theorem ltLimbs_iff (as bs : List Limb) (h : as.length = bs.length) :
    ltLimbs as bs = true ↔ limbSum as < limbSum bs := by
  induction as generalizing bs with
  | nil =>
    cases bs with
    | nil => simp [ltLimbs]
    | cons _ _ => simp at h
  | cons a as ih =>
    cases bs with
    | nil => simp at h
    | cons b bs =>
      have hl : bs.length = as.length := by simpa using h.symm
      rw [ltLimbs, limbSum_cons, limbSum_cons, hl]
      split
      · next e => rw [ih bs hl.symm, e]; omega
      · next e =>
        have hne : a.toNat ≠ b.toNat := fun hv => e (BitVec.eq_of_toNat_eq hv)
        have ha := limbSum_lt as
        have hb := limbSum_lt bs
        rw [hl] at hb
        rw [decide_eq_true_iff]
        generalize (2 ^ 32) ^ as.length = p at *
        constructor
        · intro hlt
          have := Nat.mul_le_mul_right p (Nat.succ_le_of_lt hlt)
          rw [Nat.succ_mul] at this
          omega
        · intro hlt
          by_contra hge
          have := Nat.mul_le_mul_right p (Nat.succ_le_of_lt (lt_of_le_of_ne (Nat.not_lt.mp hge) (Ne.symm hne)))
          rw [Nat.succ_mul] at this
          omega

/-- The order limb by limb is the order of the numbers (44_ordering.md R800). -/
theorem ltValue_iff (a b : Value) : ltValue a b = true ↔ a.toNat < b.toNat := by
  rw [ltValue, ltLimbs_iff _ _ ((limbs_length a).trans (limbs_length b).symm), limbSum_limbs, limbSum_limbs]

/-! ### Trailing zeros -/

/-- The count of a value with a set bit is its lowest set bit (46_convert_hash.md R1002). -/
theorem trailingZeros_of_ne (x : Value) (h : x ≠ 0#256) :
    trailingZeros x < 256 ∧ x.getLsbD (trailingZeros x) = true ∧ ∀ j < trailingZeros x, x.getLsbD j = false := by
  unfold trailingZeros
  cases hf : (List.range 256).find? (fun i => x.getLsbD i) with
  | none =>
    refine absurd (BitVec.eq_of_getLsbD_eq fun i hi => ?_) h
    have := List.find?_eq_none.mp hf i (List.mem_range.mpr hi)
    simpa using this
  | some i =>
    rw [List.find?_range_eq_some] at hf
    exact ⟨List.mem_range.mp hf.2.1, hf.1, fun j hj => by simpa using hf.2.2 j hj⟩

theorem trailingZeros_zero : trailingZeros 0#256 = 256 := by
  unfold trailingZeros
  rw [List.find?_eq_none.mpr (by simp)]

end Sys2Proof.Machine
end

