-- ==== Sys2Proof/Laws/Hex.lean ====
section
/-! SUPPORT. The hexadecimal text (45_hex.md): reading digits, folding them, and the text of a value. -/

namespace Sys2Proof.Machine

/-! ### Characters -/

/-- The digit of a digit's lowercase character is the digit. -/
theorem hexDigit?_hexChar (d : Nibble) : hexDigit? (hexChar d) = some d := by
  revert d
  decide

/-! ### Reading a text -/

/-- A text is read to the end exactly when every character is a digit, and the digits are theirs. -/
theorem scanDigits_ok_iff (cs : List Byte) (i : Nat) (ds : List Nibble) :
    scanDigits cs i = .ok ds ↔ cs.map hexDigit? = ds.map some := by
  induction cs generalizing i ds with
  | nil => cases ds <;> simp [scanDigits]
  | cons c cs ih =>
    rw [scanDigits]
    cases hc : hexDigit? c with
    | none => cases ds <;> simp [hc]
    | some d =>
      cases hr : scanDigits cs (i + 1) with
      | error j =>
        cases ds with
        | nil => simp
        | cons e ds =>
          have := ih (i + 1) ds
          rw [hr] at this
          simp only [reduceCtorEq, false_iff] at this
          simp [this]
      | ok es =>
        cases ds with
        | nil => simp
        | cons e ds =>
          have := ih (i + 1) ds
          rw [hr, Except.ok.injEq] at this
          simp [hc, this]

/-- Reading stops at the first character that is no digit (45_hex.md R901, "lowest bad index"). -/
theorem scanDigits_error_iff (cs : List Byte) (i j : Nat) :
    scanDigits cs i = .error j ↔
      ∃ k, j = i + k ∧ (∃ c, cs[k]? = some c ∧ hexDigit? c = none) ∧
        ∀ m < k, ∃ c, cs[m]? = some c ∧ hexDigit? c ≠ none := by
  induction cs generalizing i j with
  | nil => simp [scanDigits]
  | cons c cs ih =>
    rw [scanDigits]
    cases hc : hexDigit? c with
    | none =>
      simp only [Except.error.injEq]
      constructor
      · rintro rfl
        exact ⟨0, rfl, ⟨c, rfl, hc⟩, fun m hm => absurd hm (Nat.not_lt_zero m)⟩
      · rintro ⟨k, rfl, -, hk⟩
        cases k with
        | zero => rfl
        | succ k =>
          obtain ⟨c', h1, h2⟩ := hk 0 (Nat.succ_pos k)
          simp only [List.getElem?_cons_zero, Option.some.injEq] at h1
          exact absurd (h1 ▸ hc) h2
    | some d =>
      have pass : scanDigits (c :: cs) i = .error j ↔ scanDigits cs (i + 1) = .error j := by
        rw [scanDigits, hc]
        cases scanDigits cs (i + 1) <;> simp
      rw [scanDigits, hc] at pass
      rw [pass, ih (i + 1) j]
      constructor
      · rintro ⟨k, rfl, hb, hk⟩
        refine ⟨k + 1, by omega, by simpa using hb, ?_⟩
        intro m hm
        cases m with
        | zero => exact ⟨c, rfl, by simp [hc]⟩
        | succ m => simpa using hk m (by omega)
      · rintro ⟨k, rfl, hb, hk⟩
        cases k with
        | zero => simp [hc] at hb
        | succ k =>
          refine ⟨k, by omega, by simpa using hb, ?_⟩
          intro m hm
          simpa using hk (m + 1) (by omega)

/-- The text of digits is read back as the digits. -/
theorem scanDigits_map_hexChar (ds : List Nibble) (i : Nat) : scanDigits (ds.map hexChar) i = .ok ds := by
  rw [scanDigits_ok_iff, List.map_map]
  exact List.map_congr_left fun d _ => hexDigit?_hexChar d

/-! ### Folding digits -/

theorem foldDigits_append (ds : List Nibble) (d : Nibble) :
    foldDigits (ds ++ [d]) = foldDigits ds * 16#256 + d.zeroExtend 256 := by
  simp [foldDigits]

/-- Folding one more of a value's digits shifts in its next four bits: after k digits the value of its top 4k bits. -/
theorem foldDigits_format (x : Value) (k : Nat) (hk : k ≤ 64) :
    (foldDigits ((List.range k).map fun i => x.extractLsb' (252 - 4 * i) 4)).toNat = x.toNat / 2 ^ (256 - 4 * k) := by
  induction k with
  | zero =>
    have := x.isLt
    simp only [List.range_zero, List.map_nil, foldDigits, List.foldl_nil, BitVec.toNat_ofNat]
    omega
  | succ k ih =>
    have h := ih (by omega)
    have hx := x.isLt
    rw [List.range_succ, List.map_append, List.map_singleton, foldDigits_append, BitVec.toNat_add, BitVec.toNat_mul, h]
    simp only [BitVec.toNat_setWidth, toNat_field]
    have e1 : 256 - 4 * k = (252 - 4 * k) + 4 := by omega
    have e2 : 256 - 4 * (k + 1) = 252 - 4 * k := by omega
    have hp : x.toNat / 2 ^ (252 - 4 * k) < 2 ^ 256 := lt_of_le_of_lt (Nat.div_le_self _ _) hx
    rw [e1, e2, Nat.pow_add, ← Nat.div_div_eq_div_mul]
    generalize x.toNat / 2 ^ (252 - 4 * k) = y at *
    simp only [BitVec.toNat_ofNat]
    omega

/-- The text of a value, as a list of characters. -/
theorem formatValue_toList (x : Value) : (formatValue x).toList =
    ((List.range 64).map fun i => x.extractLsb' (252 - 4 * i) 4).map hexChar := by
  apply List.ext_getElem
  · simp
  · intro i h1 h2
    simp [formatValue]

end Sys2Proof.Machine
end

