-- ==== Sys2Proof/Laws/Text.lean ====
section
/-! SUPPORT. The text in HEXBUF (45_hex.md R900, R901): its characters, its digits, and the outcome of its check in each
case. -/

namespace Sys2Proof.Machine

variable (s : State)

theorem charAt_eq {i : Nat} (h : i < 64) : charAt s i = s.hexbuf[i] := by
  simp [charAt, h]

theorem text_length (h : s.hexlen.toNat ≤ 64) : s.text.length = s.hexlen.toNat := by
  simp [State.text, h]

/-- Character k of the text is HB[k]. -/
theorem text_getElem? {k : Nat} (h : s.hexlen.toNat ≤ 64) (hk : k < s.hexlen.toNat) :
    s.text[k]? = some (charAt s k) := by
  have : k < 64 := by omega
  simp [State.text, hk, charAt_eq s this, this]

/-- A character is a hex digit exactly when it has a value (45_hex.md R900). -/
theorem hexDigit?_isSome_iff (c : Byte) : (hexDigit? c).isSome = true ↔ IsHexDigit c := by
  unfold hexDigit? IsHexDigit
  split
  · simp [*]
  · split
    · simp [*]
    · split <;> simp_all

theorem hexDigit?_eq_none_iff (c : Byte) : hexDigit? c = none ↔ ¬ IsHexDigit c := by
  rw [← hexDigit?_isSome_iff, Bool.not_eq_true, Option.isSome_eq_false_iff, Option.isNone_iff_eq_none]

/-- The value of a digit's character (45_hex.md R900). -/
theorem toNat_of_hexDigit? {c : Byte} {d : Nibble} (h : hexDigit? c = some d) : d.toNat = nib c := by
  unfold hexDigit? at h
  unfold nib
  split at h
  · cases h
    rw [if_pos (by omega), BitVec.toNat_ofNat]
    omega
  · split at h
    · cases h
      rw [if_neg (by omega), if_pos (by omega), BitVec.toNat_ofNat]
      omega
    · split at h
      · cases h
        rw [if_neg (by omega), if_neg (by omega), BitVec.toNat_ofNat]
        omega
      · cases h

/-! ### The check of a text -/

theorem checkText_empty (h : s.hexlen.toNat = 0) : checkText s = .error ⟨.hexEmpty, 0#8⟩ := by
  have : s.hexlen = 0#8 := BitVec.eq_of_toNat_eq h
  simp [checkText, this]

theorem checkText_tooLong (h : 64 < s.hexlen.toNat) : checkText s = .error ⟨.hexTooLong, s.hexlen⟩ := by
  have h0 : s.hexlen ≠ 0#8 := fun e => by simp [e] at h
  simp [checkText, h0, Config.maxHexChars, h]

theorem checkText_odd (h : s.hexlen.toNat ≤ 64) (ho : s.hexlen.toNat % 2 = 1) :
    checkText s = .error ⟨.hexOddLength, s.hexlen⟩ := by
  have h0 : s.hexlen ≠ 0#8 := fun e => by simp [e] at ho
  simp [checkText, h0, Config.maxHexChars, Nat.not_lt.mpr h, ho]

/-- With a length that is in range and even, the check is the reading of the digits. -/
theorem checkText_scan (h0 : 0 < s.hexlen.toNat) (h : s.hexlen.toNat ≤ 64) (he : s.hexlen.toNat % 2 = 0) :
    checkText s = match scanDigits s.text 0 with
      | .ok ds => .ok ds
      | .error i => .error ⟨.hexBadChar, BitVec.ofNat 8 i⟩ := by
  have h1 : s.hexlen ≠ 0#8 := fun e => by simp [e] at h0
  have h2 : ¬ s.hexlen.toNat > Config.maxHexChars := Nat.not_lt.mpr h
  have h3 : ¬ s.hexlen.toNat % 2 = 1 := by omega
  exact (if_neg h1).trans ((if_neg h2).trans (if_neg h3))

/-- The first bad character of a text in range is what the check reports. -/
theorem checkText_badChar {i : Nat} (h : s.hexlen.toNat ≤ 64) (he : s.hexlen.toNat % 2 = 0) (hi : i < s.hexlen.toNat)
    (hb : ¬ IsHexDigit (charAt s i)) (hg : ∀ j < i, IsHexDigit (charAt s j)) :
    checkText s = .error ⟨.hexBadChar, BitVec.ofNat 8 i⟩ := by
  have hs : scanDigits s.text 0 = .error i := by
    rw [scanDigits_error_iff]
    refine ⟨i, by omega, ⟨_, text_getElem? s h hi, (hexDigit?_eq_none_iff _).mpr hb⟩, fun m hm => ?_⟩
    exact ⟨_, text_getElem? s h (by omega), fun hn => (hexDigit?_eq_none_iff _).mp hn (hg m hm)⟩
  rw [checkText_scan s (by omega) h he, hs]

/-- A valid text passes, and its digits are those of its characters. -/
theorem checkText_valid (h : ValidText s) :
    ∃ ds, checkText s = .ok ds ∧ s.text.map hexDigit? = ds.map some := by
  obtain ⟨h0, h64, he, hd⟩ := h
  cases hs : scanDigits s.text 0 with
  | ok ds => exact ⟨ds, by rw [checkText_scan s h0 h64 he, hs], (scanDigits_ok_iff _ _ _).mp hs⟩
  | error j =>
    obtain ⟨k, -, ⟨c, hc, hn⟩, -⟩ := (scanDigits_error_iff _ _ _).mp hs
    have hk : k < s.hexlen.toNat := by
      have := (List.getElem?_eq_some_iff.mp hc).1
      rwa [text_length s h64] at this
    rw [text_getElem? s h64 hk, Option.some.injEq] at hc
    exact absurd (hd k hk) ((hexDigit?_eq_none_iff _).mp (hc ▸ hn))

/-- What the check can report: each of the four causes under its condition, the last with its lowest bad index. -/
theorem checkText_error_cases {e : Violation} (h : checkText s = .error e) :
    (e = ⟨.hexEmpty, 0#8⟩ ∧ s.hexlen.toNat = 0) ∨
    (e = ⟨.hexTooLong, s.hexlen⟩ ∧ 64 < s.hexlen.toNat) ∨
    (e = ⟨.hexOddLength, s.hexlen⟩ ∧ s.hexlen.toNat ≤ 64 ∧ s.hexlen.toNat % 2 = 1) ∨
    (∃ i, e = ⟨.hexBadChar, BitVec.ofNat 8 i⟩ ∧ s.hexlen.toNat ≤ 64 ∧ s.hexlen.toNat % 2 = 0 ∧ i < s.hexlen.toNat ∧
      ¬ IsHexDigit (charAt s i) ∧ ∀ j < i, IsHexDigit (charAt s j)) := by
  by_cases h0 : s.hexlen.toNat = 0
  · rw [checkText_empty s h0] at h
    exact .inl ⟨(Except.error.inj h).symm, h0⟩
  by_cases h64 : 64 < s.hexlen.toNat
  · rw [checkText_tooLong s h64] at h
    exact .inr (.inl ⟨(Except.error.inj h).symm, h64⟩)
  by_cases ho : s.hexlen.toNat % 2 = 1
  · rw [checkText_odd s (by omega) ho] at h
    exact .inr (.inr (.inl ⟨(Except.error.inj h).symm, by omega, ho⟩))
  rw [checkText_scan s (by omega) (by omega) (by omega)] at h
  cases hs : scanDigits s.text 0 with
  | ok ds => rw [hs] at h; cases h
  | error j =>
    rw [hs] at h
    obtain ⟨k, hj, ⟨c, hc, hn⟩, hg⟩ := (scanDigits_error_iff _ _ _).mp hs
    have hk : k < s.hexlen.toNat := by
      have := (List.getElem?_eq_some_iff.mp hc).1
      rwa [text_length s (by omega)] at this
    rw [text_getElem? s (by omega) hk, Option.some.injEq] at hc
    refine .inr (.inr (.inr ⟨k, ?_, by omega, by omega, hk, (hexDigit?_eq_none_iff _).mp (hc ▸ hn), fun m hm => ?_⟩))
    · rw [← Except.error.inj h, hj, Nat.zero_add]
    · obtain ⟨c', hc', hn'⟩ := hg m hm
      rw [text_getElem? s (by omega) (by omega), Option.some.injEq] at hc'
      by_contra hbad
      exact hn' (hc' ▸ (hexDigit?_eq_none_iff _).mpr hbad)

end Sys2Proof.Machine
end

