-- ==== Sys2Proof/Laws/Exec.lean ====
section
/-! SUPPORT. What a command can do, said once: its outcomes (`exec_outcome`), the frames of the shared operations, and the
equation of each shared check. -/

namespace Sys2Proof.Machine

variable (s : State)

/-! ### The shared operations -/

theorem complete_eq : complete s = .next s.countCommand := rfl

theorem raise_eq (i : Instr) (c : Cause) (info : Byte) : raise i c info s = .next (faultEntry c info (encode i) s) := rfl

theorem countCommand_ccnt_toNat : s.countCommand.ccnt.toNat = (s.ccnt.toNat + 1) % 2 ^ 32 := by
  simp [BitVec.toNat_add]

theorem faultEntry_faultsWith (c : Cause) (info : Byte) (w : Word) : FaultsWith c info w s (faultEntry c info w s) :=
  ⟨rfl, rfl, rfl, rfl, fun _ => rfl, rfl, rfl, rfl, rfl, rfl, rfl, rfl⟩

theorem writeV_writesOnlyV (r : VReg) (x : Value) : WritesOnlyV [r] s (s.writeV r x).countCommand := by
  refine ⟨fun q hq => ?_, rfl, rfl, rfl, countCommand_ccnt_toNat _, rfl, rfl, rfl, rfl, rfl⟩
  rw [State.countCommand_readV, State.writeV_readV_of_ne _ _ (by simpa using hq)]

theorem writeV_writeV_writesOnlyV (r q : VReg) (x y : Value) :
    WritesOnlyV [r, q] s ((s.writeV r x).writeV q y).countCommand := by
  refine ⟨fun p hp => ?_, rfl, rfl, rfl, countCommand_ccnt_toNat _, rfl, rfl, rfl, rfl, rfl⟩
  simp only [List.mem_cons, List.not_mem_nil, or_false, not_or] at hp
  rw [State.countCommand_readV, State.writeV_readV_of_ne _ _ hp.2, State.writeV_readV_of_ne _ _ hp.1]

theorem writeSR_writesOnlySR (x : Scalar) : WritesOnlySR s (s.writeSR x).countCommand :=
  ⟨fun _ => rfl, rfl, rfl, countCommand_ccnt_toNat _, rfl, rfl, rfl, rfl, rfl⟩

theorem writeText_writesOnlyText (hb : Vector Byte 64) (n : Byte) :
    WritesOnlyText s (s.writeText hb n).countCommand :=
  ⟨fun _ => rfl, rfl, countCommand_ccnt_toNat _, rfl, rfl, rfl, rfl, rfl⟩

/-- A shift command in range writes its result. -/
theorem shiftCommand_of_lt (i : Instr) (rd : VReg) (x : Value) {n : Nat} (h : n < 2 ^ 32) :
    shiftCommand i rd x n s = .next (s.writeV rd x).countCommand := by
  have : shiftInRange n = true := decide_eq_true h
  simp [shiftCommand, this, complete]

/-- A shift command out of range takes SHIFT_RANGE. -/
theorem shiftCommand_of_le (i : Instr) (rd : VReg) (x : Value) {n : Nat} (h : 2 ^ 32 ≤ n) :
    shiftCommand i rd x n s = .next (faultEntry .shiftRange 0#8 (encode i) s) := by
  have : shiftInRange n = false := decide_eq_false (Nat.not_lt.mpr h)
  simp [shiftCommand, this, raise]

/-! ### The outcomes of a command -/

/-- The state with its value registers, SR and text replaced: all that a command that completes may write. -/
def written (v : Vector Value 16) (sr : Scalar) (hb : Vector Byte 64) (n : Byte) : State :=
  { s with v := v, sr := sr, hexbuf := hb, hexlen := n }

/-- A command answers a next state. Either it completed, its writes are to v, SR, HEXBUF and HEXLEN, and it is counted; or it
took a fault that it may take. -/
theorem exec_outcome (i : Instr) : ∃ t, exec i s = .next t ∧
    ((∃ v sr hb n, t = (written s v sr hb n).countCommand) ∨
      (∃ c info, t = faultEntry c info (encode i) s ∧ mayRecord i c.code info = true)) := by
  have done (u : State) (hu : ∃ v sr hb n, u = written s v sr hb n) : ∃ t, complete u = .next t ∧
      ((∃ v sr hb n, t = (written s v sr hb n).countCommand) ∨
        (∃ c info, t = faultEntry c info (encode i) s ∧ mayRecord i c.code info = true)) := by
    obtain ⟨v, sr, hb, n, rfl⟩ := hu
    exact ⟨_, rfl, .inl ⟨v, sr, hb, n, rfl⟩⟩
  have wV (r : VReg) (x : Value) : ∃ v sr hb n, s.writeV r x = written s v sr hb n := ⟨_, _, _, _, rfl⟩
  have wSR (x : Scalar) : ∃ v sr hb n, s.writeSR x = written s v sr hb n := ⟨_, _, _, _, rfl⟩
  have fault (c : Cause) (info : Byte) (h : mayRecord i c.code info = true) : ∃ t, raise i c info s = .next t ∧
      ((∃ v sr hb n, t = (written s v sr hb n).countCommand) ∨
        (∃ c info, t = faultEntry c info (encode i) s ∧ mayRecord i c.code info = true)) :=
    ⟨_, rfl, .inr ⟨c, info, rfl, h⟩⟩
  have shift (rd : VReg) (x : Value) (n : Nat) (h : mayRecord i Cause.shiftRange.code 0#8 = true) :
      ∃ t, shiftCommand i rd x n s = .next t ∧
        ((∃ v sr hb n, t = (written s v sr hb n).countCommand) ∨
          (∃ c info, t = faultEntry c info (encode i) s ∧ mayRecord i c.code info = true)) := by
    unfold shiftCommand
    split
    · exact done _ (wV _ _)
    · exact fault _ _ h
  cases i with
  | nop => exact done _ ⟨_, _, _, _, rfl⟩
  | zero | mov | ldi32 | ldi64 | add | sub | mul | and | or | xor | not => exact done _ (wV _ _)
  | cmpeq | cmplt | cmple | cmpgt | cmpge | trunc32 | trunc64 | tzcnt | hash => exact done _ (wSR _)
  | hexfmt => exact done _ ⟨_, _, _, _, rfl⟩
  | shl | shr | shlv | shrv => exact shift _ _ _ rfl
  | limbrd rs1 idx =>
    rw [exec, execLimbrd]
    split
    · exact done _ (wSR _)
    · next h => exact fault _ _ (by have := idx.isLt; simp [mayRecord, Cause.code]; omega)
  | limbwr rd idx =>
    rw [exec, execLimbwr]
    split
    · exact done _ (wV _ _)
    · next h => exact fault _ _ (by have := idx.isLt; simp [mayRecord, Cause.code]; omega)
  | div rd rs1 rs2 =>
    rw [exec, execDiv]
    split
    · exact fault _ _ rfl
    · exact done _ (wV _ _)
  | mod rd rs1 rs2 =>
    rw [exec, execMod]
    split
    · exact fault _ _ rfl
    · exact done _ (wV _ _)
  | divmod rd rd2 rs1 rs2 =>
    rw [exec, execDivmod]
    split
    · exact fault _ _ rfl
    · exact done _ ⟨_, _, _, _, rfl⟩
  | hexparse rd =>
    rw [exec, execHexparse]
    split
    · exact done _ (wV _ _)
    · next e he =>
      apply fault
      rcases checkText_error_cases s he with ⟨rfl, h⟩ | ⟨rfl, h⟩ | ⟨rfl, h, ho⟩ | ⟨k, rfl, h, -, hk, -⟩
      · rfl
      · simp [mayRecord, Cause.code, h]
      · simp [mayRecord, Cause.code, ho]
        omega
      · simp [mayRecord, Cause.code]
        omega

end Sys2Proof.Machine
end

