-- ==== Sys2Proof/Laws/Window.lean ====
section
/-! SUPPORT. The host window: which register an offset names, the words of HEXBUF, and that every access answers; and a
step's run, one step at a time. -/

namespace Sys2Proof.Machine

/-! ### Offsets -/

/-- Offsets with the same word offset name the same register (20_memory.md R203). -/
theorem winReg_congr {a b : BitVec 8} (h : wordOffset a = wordOffset b) : winReg a = winReg b := by
  simp only [winReg, h]

/-- An offset names what its word offset names. -/
theorem winReg_of_wordOffset {off o : BitVec 8} (h : wordOffset off = o) : winReg off = winReg o := by
  apply winReg_congr
  subst h
  rw [wordOffset, wordOffset, BitVec.and_assoc, BitVec.and_self]

theorem winReg_eq_cmd_iff (off : BitVec 8) : winReg off = .cmd ↔ wordOffset off = 0x00#8 := by
  revert off
  decide

theorem winReg_eq_ctrl_iff (off : BitVec 8) : winReg off = .ctrl ↔ wordOffset off = 0x1C#8 := by
  revert off
  decide

theorem winReg_eq_hexbuf_iff (off : BitVec 8) (j : Fin 16) :
    winReg off = .hexbuf j ↔ (wordOffset off).toNat = 0x40 + 4 * j.val := by
  revert off j
  decide

theorem winReg_eq_reserved_iff (off : BitVec 8) : winReg off = .reserved ↔
    0x2C ≤ (wordOffset off).toNat ∧ (wordOffset off).toNat ≤ 0x3C ∨ 0x80 ≤ (wordOffset off).toNat := by
  revert off
  decide

/-! ### Words of HEXBUF (20_memory.md R207) -/

/-- Byte b of word j is HB[4j+b]. -/
theorem hexWord_byte (hb : Vector Byte 64) (j : Fin 16) (b : Fin 4) :
    (hexWord hb j).extractLsb' (8 * b.val) 8 = hb[4 * j.val + b.val] := by
  apply BitVec.eq_of_toNat_eq
  rw [toNat_field]
  simp only [hexWord, toNat_append_eq]
  have h0 := hb[4 * j.val].isLt
  have h1 := hb[4 * j.val + 1].isLt
  have h2 := hb[4 * j.val + 2].isLt
  have h3 := hb[4 * j.val + 3].isLt
  match b with
  | 0 => simp only [Fin.isValue, Fin.val_zero, Nat.add_zero]; omega
  | 1 => simp only [Fin.isValue, Fin.val_one]; omega
  | 2 => simp only [Fin.isValue, Fin.val_two]; omega
  | 3 => simp only [Fin.isValue, show (3 : Fin 4).val = 3 from rfl]; omega

/-- Writing word j sets HB[4j+b] to byte b. -/
theorem setHexWord_byte (hb : Vector Byte 64) (j : Fin 16) (w : Word) (b : Fin 4) :
    (setHexWord hb j w)[4 * j.val + b.val] = w.extractLsb' (8 * b.val) 8 := by
  fin_cases b <;> simp [setHexWord]

/-- Writing word j leaves every other character. -/
theorem setHexWord_other (hb : Vector Byte 64) (j : Fin 16) (w : Word) {i : Nat} (hi : i < 64) (h : i / 4 ≠ j.val) :
    (setHexWord hb j w)[i] = hb[i] := by
  have h0 : 4 * j.val ≠ i := by omega
  have h1 : 4 * j.val + 1 ≠ i := by omega
  have h2 : 4 * j.val + 2 ≠ i := by omega
  have h3 : 4 * j.val + 3 ≠ i := by omega
  simp [setHexWord, h0, h1, h2, h3]

/-! ### Accesses -/

/-- Every write answers a next state, and the inputs still to come and the last response are as they were. -/
theorem winWrite_next (off : BitVec 8) (w : Word) (s : State) :
    ∃ t, winWrite off w s = .next t ∧ t.inputs = s.inputs ∧ t.response = s.response := by
  unfold winWrite
  split
  · unfold runCommand
    split
    · exact ⟨_, rfl, rfl, rfl⟩
    · split
      · exact ⟨_, rfl, rfl, rfl⟩
      · next i h =>
        obtain ⟨t, h, ⟨v, sr, hb, n, rfl⟩ | ⟨c, info, rfl, -⟩⟩ := exec_outcome s i <;> exact ⟨_, h, rfl, rfl⟩
  all_goals try split
  all_goals exact ⟨_, rfl, rfl, rfl⟩

/-- A step whose next input is a write is that write, the port answering completion. -/
theorem step_write {s : State} {off : BitVec 8} {w : Word} {rest : List Input} (h : s.inputs = .write off w :: rest) :
    ∃ t, winWrite off w { s with inputs := rest } = .next t ∧
      step s = .next { t with response := some .completion } := by
  obtain ⟨t, ht, -⟩ := winWrite_next off w { s with inputs := rest }
  exact ⟨t, ht, by simp [step, h, serve, ht]⟩

/-- A step whose next input is a read changes the port's answer alone. -/
theorem step_read {s : State} {off : BitVec 8} {rest : List Input} (h : s.inputs = .read off :: rest) :
    step s = .next { s with inputs := rest, response := some (.rdata (winRead off s)) } := by
  unfold step
  rw [h]
  rfl

/-- A step whose next input is `rst` gives the reset state with the later inputs. -/
theorem step_rst {s : State} {rest : List Input} (h : s.inputs = .rst :: rest) :
    step s = .next { State.reset with inputs := rest, response := none } := by
  unfold step
  rw [h]
  rfl

/-! ### Runs -/

theorem core_run_zero (s : State) : Sys2Proof.core.run 0 s = .next s := rfl

/-- A run of one step more, when that step answers. -/
theorem core_run_succ {s t : State} (k : Nat) (h : step s = .next t) :
    Sys2Proof.core.run (k + 1) s = Sys2Proof.core.run k t := by
  have h' : Sys2Proof.core.step s = .next t := h
  have e : ∀ (M : Host.Core) (k : Nat) (s t : M.State), M.step s = .next t → M.run (k + 1) s = M.run k t := by
    intro M k s t h
    simp only [Host.Core.run, h]
  exact e Sys2Proof.core k s t h'

end Sys2Proof.Machine
end

