-- ==== Sys2Proof/Tests/Slice0.lean ====
section
/-! SUPPORT. Tests and witnesses. Expected values are the spec's own: the examples of 30_encoding.md and 40 to 46, and the
vectors V<n> of 95_test_vectors.md, named beside each. -/

namespace Sys2Proof.Tests

open Sys2Proof Sys2Proof.Machine

/-! ### Small states and views -/

/-- 2^256 - 1. -/
def maxValue : Value := BitVec.allOnes 256

/-- The reset state with v1, v2 and DATA set. -/
def withValues (a b : Value) (d : Scalar) : State := { (State.reset.writeV 1 a).writeV 2 b with data := d }

/-- The reset state with HEXBUF0, HEXBUF1 and HEXLEN set. -/
def withText (hb0 hb1 : Word) (n : Byte) : State :=
  { State.reset with hexbuf := setHexWord (setHexWord State.reset.hexbuf 0 hb0) 1 hb1, hexlen := n }

/-- The reset state with every HEXBUF byte `c` and HEXLEN set. -/
def withAll (c : Byte) (n : Byte) : State := { State.reset with hexbuf := Vector.replicate 64 c, hexlen := n }

/-- The reset state after a fault: STATUS = 0x00000011, FCMD = 0x1C000000 (V140). -/
def faulted : State :=
  { State.reset with status := { err := true, cause := 0x1#4, finfo := 0#8 }, fcmd := 0x1C000000#32 }

/-- The write of a command word to CMD. -/
def run (w : Word) (s : State) : Result := winWrite 0x00#8 w s

/-- v[r] after a command that left ERR = 0 and CCNT = 1. -/
def valueOf (r : VReg) : Result → Option Value
  | .next t => if t.status.err = false ∧ t.ccnt = 1#32 then some (t.readV r) else none
  | .fault _ => none
  | .refused _ => none

/-- SR after a command that left ERR = 0 and CCNT = 1. -/
def srOf : Result → Option Scalar
  | .next t => if t.status.err = false ∧ t.ccnt = 1#32 then some t.sr else none
  | .fault _ => none
  | .refused _ => none

/-- STATUS, FCMD and CCNT as the host reads them. -/
def statusOf : Result → Option (Word × Word × Word)
  | .next t => some (winRead 0x0C#8 t, winRead 0x20#8 t, winRead 0x24#8 t)
  | .fault _ => none
  | .refused _ => none

/-- A window word after an access. -/
def wordOf (off : BitVec 8) : Result → Option Word
  | .next t => some (winRead off t)
  | .fault _ => none
  | .refused _ => none

/-! ### WellFormed smoke: DIVMOD with rd = rd2 (30_encoding.md R311) -/

theorem test_wf_refuses_divmod_same_dest : (Instr.divmod 4 4 1 2).wf = false := by decide
theorem test_wf_takes_divmod : (Instr.divmod 4 5 1 2).wf = true := by decide
theorem test_decode_refuses_encoded_ill_formed : decode (encode (.divmod 4 4 1 2)) = .error .divmodSameDest := by decide

/-! ### Decoding: words written out from 30_encoding.md R301 and R310, every constructor -/

theorem test_decode_limb_store :
    decode 0x00000000#32 = .ok .nop ∧ decode 0x04400000#32 = .ok (.zero 1) ∧ decode 0x08840000#32 = .ok (.mov 2 1) ∧
    decode 0x0C400000#32 = .ok (.ldi32 1) ∧ decode 0x10400000#32 = .ok (.ldi64 1) ∧
    decode 0x14058000#32 = .ok (.limbrd 1 6) ∧ decode 0x1840C000#32 = .ok (.limbwr 1 3) := by decide
theorem test_decode_arithmetic :
    decode 0x20C48000#32 = .ok (.add 3 1 2) ∧ decode 0x24C48000#32 = .ok (.sub 3 1 2) ∧
    decode 0x28C48000#32 = .ok (.mul 3 1 2) ∧ decode 0x2CC48000#32 = .ok (.div 3 1 2) ∧
    decode 0x30C48000#32 = .ok (.mod 3 1 2) ∧ decode 0x35049400#32 = .ok (.divmod 4 5 1 2) := by decide
theorem test_decode_bitwise :
    decode 0x40C48000#32 = .ok (.and 3 1 2) ∧ decode 0x44C48000#32 = .ok (.or 3 1 2) ∧
    decode 0x48C48000#32 = .ok (.xor 3 1 2) ∧ decode 0x4CC40000#32 = .ok (.not 3 1) := by decide
theorem test_decode_shift :
    decode 0x50840000#32 = .ok (.shl 2 1) ∧ decode 0x54840000#32 = .ok (.shr 2 1) ∧
    decode 0x58C48000#32 = .ok (.shlv 3 1 2) ∧ decode 0x5CC48000#32 = .ok (.shrv 3 1 2) := by decide
theorem test_decode_ordering :
    decode 0x60048000#32 = .ok (.cmpeq 1 2) ∧ decode 0x64048000#32 = .ok (.cmplt 1 2) ∧
    decode 0x68048000#32 = .ok (.cmple 1 2) ∧ decode 0x6C048000#32 = .ok (.cmpgt 1 2) ∧
    decode 0x70048000#32 = .ok (.cmpge 1 2) := by decide
theorem test_decode_hex_convert_hash :
    decode 0x80400000#32 = .ok (.hexparse 1) ∧ decode 0x84040000#32 = .ok (.hexfmt 1) ∧
    decode 0x90040000#32 = .ok (.trunc32 1) ∧ decode 0x94040000#32 = .ok (.trunc64 1) ∧
    decode 0x98040000#32 = .ok (.tzcnt 1) ∧ decode 0x9C040000#32 = .ok (.hash 1) := by decide
/-- The words of section 2.8 (V140 to V149). -/
theorem test_decode_illegal_words :
    decode 0x1C000000#32 = .error .unassignedOpcode ∧ decode 0x1C400000#32 = .error .unassignedOpcode ∧
    decode 0xFC000000#32 = .error .unassignedOpcode ∧ decode 0x00000001#32 = .error .reservedBits ∧
    decode 0x20C48001#32 = .error .reservedBits ∧ decode 0x04440000#32 = .error .reservedBits ∧
    decode 0x0C400200#32 = .error .reservedBits ∧ decode 0x60C48000#32 = .error .reservedBits ∧
    decode 0x84440000#32 = .error .reservedBits ∧ decode 0x35049000#32 = .error .divmodSameDest := by decide
theorem test_decode_table_word : decodeTableWord 32 0x20C48000 = some (.add 3 1 2) ∧ decodeTableWord 32 1 = none := by decide
theorem test_encode_add : encode (.add 3 1 2) = 0x20C48000#32 := by decide

/-! ### Limb store -/

theorem test_nop_counts : statusOf (run 0x00000000#32 State.reset) = some (0#32, 0#32, 1#32) := by decide
/-- V156. -/
theorem test_ccnt_wraps : wordOf 0x24#8 (run 0#32 { State.reset with ccnt := 0xFFFFFFFF#32 }) = some 0#32 := by decide
theorem test_zero_v2 : valueOf 1 (run 0x04400000#32 (withValues maxValue 0 0)) = some 0 := by decide
theorem test_mov_v4 : valueOf 2 (run 0x08840000#32 (withValues 7 0 0)) = some 7 := by decide
theorem test_ldi32_v5 : valueOf 1 (run 0x0C400000#32 (withValues 0 0 0xAAAAAAAA12345678#64)) = some 0x12345678 := by decide
theorem test_ldi64_v6 : valueOf 1 (run 0x10400000#32 (withValues maxValue 0 0xAAAAAAAA12345678#64)) = some 0xAAAAAAAA12345678 := by
  decide
theorem test_limbrd_v10 : srOf (run 0x14058000#32 (withValues 0xFFFFFFFF00000000 0 0)) = some 0xFFFFFFFF := by decide
theorem test_limbrd_v13 : statusOf (run 0x1407C000#32 State.reset) = some (0x00000F41#32, 0x1407C000#32, 0#32) := by decide
theorem test_limbwr_v14 : valueOf 1 (run 0x1840C000#32 (withValues maxValue 0 0xDEADBEEF00000000#64)) =
    some 0xFFFFFFFFFFFFFFFFFFFFFFFF00000000FFFFFFFFFFFFFFFFFFFFFFFFFFFFFFFF := by decide
theorem test_limbwr_v16 : statusOf (run 0x18424000#32 (withValues maxValue 0 0)) = some (0x00000941#32, 0x18424000#32, 0#32) := by
  decide

/-! ### Arithmetic -/

theorem test_add_v21 : valueOf 3 (run 0x20C48000#32 (withValues (BitVec.ofNat 256 (2 ^ 224 - 1)) 1 0)) =
    some (BitVec.ofNat 256 (2 ^ 224)) := by decide
theorem test_add_v24 : valueOf 3 (run 0x20C48000#32 (withValues maxValue maxValue 0)) = some (maxValue - 1) := by decide
theorem test_sub_v27 : valueOf 3 (run 0x24C48000#32 (withValues 0x100000000 1 0)) = some 0xFFFFFFFF := by decide
theorem test_sub_v28 : valueOf 3 (run 0x24C48000#32 (withValues 5 7 0)) = some (maxValue - 1) := by decide
theorem test_mul_v31 : valueOf 3 (run 0x28C48000#32 (withValues maxValue maxValue 0)) = some 1 := by decide
theorem test_mul_v34 : valueOf 3 (run 0x28C48000#32
    (withValues (BitVec.ofNat 256 (2 ^ 128 + 5)) (BitVec.ofNat 256 (2 ^ 128 + 7)) 0)) =
    some 0xC00000000000000000000000000000023 := by decide
theorem test_div_v42 : valueOf 3 (run 0x2CC48000#32 (withValues (BitVec.ofNat 256 (2 ^ 200 + 12345)) 0x100000001 0)) =
    some 0xFFFFFFFF00000000FFFFFFFF00000000FFFFFFFF00 := by decide
theorem test_div_v46 : statusOf (run 0x2CC40000#32 (withValues 0x64 0 0)) = some (0x00000021#32, 0x2CC40000#32, 0#32) := by decide
theorem test_mod_v43 : valueOf 3 (run 0x30C48000#32 (withValues (BitVec.ofNat 256 (2 ^ 200 + 12345)) 0x100000001 0)) =
    some 0x3139 := by decide
theorem test_mod_v47 : statusOf (run 0x30C40000#32 (withValues 0x64 0 0)) = some (0x00000021#32, 0x30C40000#32, 0#32) := by decide
theorem test_divmod_v49 : valueOf 1 (run 0x34448800#32 (withValues 0x64 7 0)) = some 0xE ∧
    valueOf 2 (run 0x34448800#32 (withValues 0x64 7 0)) = some 2 := by decide
theorem test_divmod_v50 : statusOf (run 0x35049400#32 (withValues 0x64 0 0)) = some (0x00000021#32, 0x35049400#32, 0#32) := by
  decide

/-! ### Bitwise logic -/

theorem test_and_v60 : valueOf 3 (run 0x40C48000#32 (withValues 0xFF00FF00 0x0FF00FF0 0)) = some 0x0F000F00 := by decide
theorem test_or_v61 : valueOf 3 (run 0x44C48000#32 (withValues 0xFF00FF00 0x0FF00FF0 0)) = some 0xFFF0FFF0 := by decide
theorem test_xor_v62 : valueOf 3 (run 0x48C48000#32 (withValues 0xFF00FF00 0x0FF00FF0 0)) = some 0xF0F0F0F0 := by decide
theorem test_not_v63 : valueOf 3 (run 0x4CC40000#32 State.reset) = some maxValue := by decide

/-! ### Shifts -/

theorem test_shl_v77 : valueOf 2 (run 0x50840000#32 (withValues 0x123456789 0 36#64)) = some 0x123456789000000000 := by decide
theorem test_shl_v75 : statusOf (run 0x50840000#32 (withValues maxValue 0 0x100000000#64)) =
    some (0x00000031#32, 0x50840000#32, 0#32) := by decide
theorem test_shr_v79 : valueOf 2 (run 0x54840000#32 (withValues maxValue 0 4#64)) = some (BitVec.ofNat 256 (2 ^ 252 - 1)) := by decide
theorem test_shr_v81 : valueOf 2 (run 0x54840000#32 (withValues maxValue 0 300#64)) = some 0 := by decide
theorem test_shlv_v82 : valueOf 3 (run 0x58C48000#32 (withValues 1 224 0)) = some (BitVec.ofNat 256 (2 ^ 224)) := by decide
theorem test_shlv_v84 : statusOf (run 0x58C48000#32 (withValues 1 (BitVec.ofNat 256 (2 ^ 200)) 0)) =
    some (0x00000031#32, 0x58C48000#32, 0#32) := by decide
theorem test_shrv_v86 : valueOf 3 (run 0x5CC48000#32 (withValues maxValue 0xFC 0)) = some 0xF := by decide
theorem test_shrv_v87 : valueOf 1 (run 0x5C444000#32 (withValues 0x40 0 0)) = some 0 := by decide
/-- V77 by the limb-level form (43_shift.md R705). -/
theorem test_shift_limbs_v77 : shiftLeftLimbs 0x123456789 36 = 0x123456789000000000 := by decide

/-! ### Ordering -/

theorem test_cmpeq_v96 : srOf (run 0x60048000#32 (withValues maxValue 0 0)) = some 0 := by decide
theorem test_cmpeq_r801 : srOf (run 0x60048000#32 (withValues 0x53058B35 0x53058B35 0)) = some 1 := by decide
theorem test_cmplt_v91 : srOf (run 0x64048000#32
    (withValues (BitVec.ofNat 256 (2 ^ 224)) (BitVec.ofNat 256 (2 ^ 225)) 0)) = some 1 := by decide
theorem test_cmplt_v92 : srOf (run 0x64048000#32
    (withValues (BitVec.ofNat 256 (2 ^ 224)) (BitVec.ofNat 256 (2 ^ 224 - 1)) 0)) = some 0 := by decide
theorem test_cmple_v93 : srOf (run 0x68048000#32 (withValues 5 5 0)) = some 1 := by decide
theorem test_cmpgt_v90 : srOf (run 0x6C048000#32 (withValues 0xFFFFFFFFFFFFFFFF 0xFFFFFFFFFFFFFFFE 0)) = some 1 := by decide
theorem test_cmpge_v98 : srOf (run 0x70048000#32 (withValues 0 maxValue 0)) = some 0 := by decide

/-! ### Hexadecimal text -/

/-- V100: the text "53058b35". -/
theorem test_hexparse_v100 : valueOf 1 (run 0x80400000#32 (withText 0x35303335#32 0x35336238#32 8#8)) = some 0x53058B35 := by decide +kernel
/-- V104: 64 characters 'f'. -/
theorem test_hexparse_v104 : valueOf 1 (run 0x80400000#32 (withAll 0x66#8 64#8)) = some maxValue := by decide +kernel
/-- V113. -/
theorem test_hexfmt_v113 :
    wordOf 0x40#8 (run 0x84040000#32 (withValues 0x53058B35 0 0)) = some 0x30303030#32 ∧
    wordOf 0x78#8 (run 0x84040000#32 (withValues 0x53058B35 0 0)) = some 0x35303335#32 ∧
    wordOf 0x7C#8 (run 0x84040000#32 (withValues 0x53058B35 0 0)) = some 0x35336238#32 ∧
    wordOf 0x18#8 (run 0x84040000#32 (withValues 0x53058B35 0 0)) = some 0x40#32 := by decide

/-! ### Narrowing, trailing zeros, hash -/

theorem test_trunc32_v120 : srOf (run 0x90040000#32 (withValues 0x500000007 0 0)) = some 7 := by decide
theorem test_trunc64_v122 : srOf (run 0x94040000#32 (withValues (BitVec.ofNat 256 (2 ^ 200 + 0x100000002)) 0 0)) =
    some 0x100000002 := by decide
theorem test_tzcnt_v125 : srOf (run 0x98040000#32 State.reset) = some 256 := by decide
theorem test_tzcnt_v130 : srOf (run 0x98040000#32 (withValues (BitVec.ofNat 256 (2 ^ 65 + 2 ^ 33)) 0 0)) = some 33 := by decide
/-- V134: SR is HASHFN of the limbs; no number can be given. -/
theorem test_hash_v134 : srOf (run 0x9C040000#32 (withValues 5 0 0)) =
    some (Config.hashFn #v[0#32, 0#32, 0#32, 0#32, 0#32, 0#32, 0#32, 5#32]) := by rfl

/-! ### The window and steps -/

/-- V152: bits [1:0] of an offset are ignored. -/
theorem test_window_v152 : wordOf 0x04#8 (winWrite 0x05#8 0x12345678#32 State.reset) = some 0x12345678#32 := by decide
/-- V153. -/
theorem test_window_v153 : wordOf 0x18#8 (winWrite 0x18#8 0x1FF#32 State.reset) = some 0xFF#32 := by decide
/-- V154. -/
theorem test_window_v154 : wordOf 0x0C#8 (winWrite 0x0C#8 0xFFFFFFFF#32 State.reset) = some 0#32 ∧
    wordOf 0x24#8 (winWrite 0x24#8 5#32 State.reset) = some 0#32 ∧
    wordOf 0x28#8 (winWrite 0x28#8 0#32 State.reset) = some 0x55323536#32 := by decide
/-- V155: HB[0..3] = "ABCD". -/
theorem test_window_v155 : (match winWrite 0x40#8 0x44434241#32 State.reset with
    | .next t => t.hexbuf.toList.take 4
    | .fault _ => []
    | .refused _ => []) = [0x41#8, 0x42#8, 0x43#8, 0x44#8] := by decide
/-- V157, V159. -/
theorem test_window_v157_v159 : statusOf (run 0x0C400000#32 faulted) = some (0x00000011#32, 0x1C000000#32, 0#32) ∧
    statusOf (winWrite 0x1C#8 0#32 faulted) = some (0x00000011#32, 0x1C000000#32, 0#32) ∧
    statusOf (winWrite 0x1C#8 1#32 faulted) = some (0#32, 0#32, 0#32) := by decide
/-- V153 as a step: the write of 0x1FF to HEXLEN is served to its end. -/
theorem test_step_serves_hexlen_write : wordOf 0x18#8 (step { State.reset with inputs := [.write 0x18#8 0x1FF#32] }) = some 0xFF#32 := by
  decide
/-- A step runs the word that withFetchWord places (V25's word, with v1 = 5). -/
theorem test_step_runs_fetch_word : valueOf 1 (step ((withValues 5 0 0).withFetchWord 32 0x20444000)) = some 0xA := by decide

/-! ### The host's notation (examples of 30_encoding.md R330) -/

theorem test_line_shl : lineText (.shl 2 1) (some 224) = "SHL v2, v1, 224" := by decide
theorem test_line_divmod : lineText (.divmod 4 5 1 2) none = "DIVMOD v4, v5, v1, v2" := by decide
/-- P6, rows 1 and 2: the first limb of LDI256 v7. -/
theorem test_ldi256_first_limb : (expand (.ldi256 7 (BitVec.ofNat 256 (2 ^ 255)))).map (List.take 2) =
    some [.write 0x04#8 0x80000000#32, .write 0x00#8 0x19C00000#32] := by decide

/-! ### Witnesses: states and operands that meet the hypotheses of the statements of Obligations.lean

Each is named after its statement. Where a statement has several clauses, each clause has one at a boundary value. -/

theorem test_witness_DecodeEncodeRoundTrip : (Instr.divmod 15 0 15 15).wf = true := by decide
theorem test_witness_EncodeDecodeRoundTrip : decode 0x37C3FC00#32 = .error .divmodSameDest ∧
    decode 0x37FFC000#32 = .ok (.divmod 15 0 15 15) := by decide
/-- Cases (a), (b) and (c) of R311, at their ends. -/
theorem test_witness_IllegalWordsTakeIllegalInstr : State.reset.status.err = false ∧ IllegalWord 0x1C000000#32 ∧
    IllegalWord 0xA0000000#32 ∧ IllegalWord 0x00000001#32 ∧ IllegalWord 0x35049000#32 :=
  ⟨rfl, .inl (.inl (by decide)), .inl (.inr (by decide)), .inr (.inl ⟨⟨0x00#6, .n, fun _ => .nop⟩, .head _, rfl, by decide⟩),
    .inr (.inr (by decide))⟩
theorem test_witness_StepRunsDecodedCommand :
    wordOffset 0x03#8 = 0x00#8 ∧
    ({ faulted with inputs := [.write 0x03#8 0#32] } : State).status.err = true ∧
    State.reset.status.err = false ∧ decode 0x1C000000#32 = .error .unassignedOpcode ∧
    decode 0x00000000#32 = .ok .nop ∧ decode 0x80400000#32 = .ok (.hexparse 1) := by decide
/-- No input, and each kind of input as the oldest. -/
theorem test_witness_StepServesOldestInput : State.reset.inputs = [] ∧
    ({ State.reset with inputs := [.rst, .read 0xFF#8] } : State).inputs = .rst :: [.read 0xFF#8] ∧
    ({ State.reset with inputs := [.read 0xFF#8] } : State).inputs = .read 0xFF#8 :: [] ∧
    ({ State.reset with inputs := [.write 0x1B#8 0x1FF#32] } : State).inputs = .write 0x1B#8 0x1FF#32 :: [] := by decide
/-- Each cause's condition is met by a word in a state outside the fault state, and the write records that cause. -/
theorem test_witness_FaultCauses_illegal : State.reset.status.err = false ∧ CauseHolds 0x00000001#32 State.reset .illegalInstr ∧
    statusOf (run 0x00000001#32 State.reset) = some (0x00000011#32, 0x00000001#32, 0#32) :=
  ⟨rfl, .inr (.inl ⟨⟨0x00#6, .n, fun _ => .nop⟩, .head _, rfl, by decide⟩), by decide⟩
theorem test_witness_FaultCauses_divByZero : CauseHolds 0x2CC40000#32 State.reset .divByZero ∧
    statusOf (run 0x2CC40000#32 State.reset) = some (0x00000021#32, 0x2CC40000#32, 0#32) :=
  ⟨⟨3, 3, 1, 0, by decide, .inl (by decide)⟩, by decide⟩
/-- At 2^32, the least amount out of range. -/
theorem test_witness_FaultCauses_shiftRange :
    CauseHolds 0x50840000#32 (withValues 1 0 0x100000000#64) .shiftRange ∧
    CauseHolds 0x5CC48000#32 (withValues 1 0x100000000 0#64) .shiftRange ∧
    statusOf (run 0x5CC48000#32 (withValues 1 0x100000000 0#64)) = some (0x00000031#32, 0x5CC48000#32, 0#32) :=
  ⟨⟨2, 1, 0, .inl ⟨by decide, .inl (by decide)⟩⟩, ⟨3, 1, 2, .inr ⟨by decide, .inr (by decide)⟩⟩, by decide⟩
/-- At 8 (V12) and 15. -/
theorem test_witness_FaultCauses_limbIndex : CauseHolds 0x14060000#32 State.reset .limbIndex ∧
    CauseHolds 0x1843C000#32 State.reset .limbIndex ∧
    statusOf (run 0x14060000#32 State.reset) = some (0x00000841#32, 0x14060000#32, 0#32) :=
  ⟨⟨1, 8, by decide, .inl (by decide)⟩, ⟨1, 15, by decide, .inr (by decide)⟩, by decide⟩
/-- V106. -/
theorem test_witness_FaultCauses_hexEmpty : CauseHolds 0x80400000#32 State.reset .hexEmpty ∧
    statusOf (run 0x80400000#32 State.reset) = some (0x00000051#32, 0x80400000#32, 0#32) :=
  ⟨⟨1, by decide, by decide⟩, by decide⟩
/-- V108: 65 characters, the least length too long, though it is odd and the characters are bad. -/
theorem test_witness_FaultCauses_hexTooLong : CauseHolds 0x80400000#32 (withAll 0x67#8 65#8) .hexTooLong ∧
    statusOf (run 0x80400000#32 (withAll 0x67#8 65#8)) = some (0x00004161#32, 0x80400000#32, 0#32) :=
  ⟨⟨1, by decide, by decide⟩, by decide⟩
/-- 63 characters, the greatest odd length; V111 has the least. -/
theorem test_witness_FaultCauses_hexOddLength : CauseHolds 0x80400000#32 (withAll 0x61#8 63#8) .hexOddLength ∧
    statusOf (run 0x80400000#32 (withAll 0x61#8 1#8)) = some (0x00000171#32, 0x80400000#32, 0#32) :=
  ⟨⟨1, by decide, by decide, by decide⟩, by decide⟩
/-- V112a: "12g4", the bad character at index 2. -/
theorem test_witness_FaultCauses_hexBadChar : CauseHolds 0x80400000#32 (withText 0x34673231#32 0#32 4#8) .hexBadChar ∧
    statusOf (run 0x80400000#32 (withText 0x34673231#32 0#32 4#8)) = some (0x00000281#32, 0x80400000#32, 0#32) := by
  refine ⟨⟨1, by decide, by decide, by decide, 2, by decide, ?_⟩, by decide⟩
  unfold IsHexDigit; decide
/-- The four clauses of FINFO: LIMB_INDEX, a length, a bad character, and 0. -/
theorem test_witness_FaultInformation : State.reset.status.err = false ∧
    (∃ t, winWrite 0x00#8 0x1407C000#32 State.reset = .next t ∧ t.status.err = true ∧ t.status.cause = 0x4#4) ∧
    (∃ t, winWrite 0x00#8 0x80400000#32 (withAll 0#8 255#8) = .next t ∧ t.status.err = true ∧ t.status.cause = 0x6#4) ∧
    (∃ t, winWrite 0x00#8 0x80400000#32 (withAll 0#8 1#8) = .next t ∧ t.status.err = true ∧ t.status.cause = 0x7#4) ∧
    (∃ t, winWrite 0x00#8 0x80400000#32 (withAll 0#8 2#8) = .next t ∧ t.status.err = true ∧ t.status.cause = 0x8#4) ∧
    (∃ t, winWrite 0x00#8 0xFC000000#32 State.reset = .next t ∧ t.status.err = true ∧ t.status.cause = 0x1#4) :=
  ⟨rfl, ⟨_, rfl, rfl, rfl⟩, ⟨_, rfl, rfl, rfl⟩, ⟨_, rfl, rfl, rfl⟩, ⟨_, rfl, rfl, rfl⟩, ⟨_, rfl, rfl, rfl⟩⟩
theorem test_witness_FaultStateIgnoresCommands : faulted.status.err = true ∧ wordOffset 0x03#8 = 0x00#8 ∧
    wordOffset 0x1F#8 = 0x1C#8 ∧ wordOffset 0x08#8 ≠ 0x0C#8 ∧ wordOffset 0x08#8 ≠ 0x00#8 ∧ wordOffset 0x08#8 ≠ 0x1C#8 := by decide
/-- Both clauses: a step in the fault state that serves no reset, and the two kinds of reset. -/
theorem test_witness_OnlyResetLeavesFaultState :
    (faulted.status.err = true ∧ ∃ t, step { faulted with inputs := [.write 0x00#8 0#32] } = .next t) ∧
    Resets .rst ∧ Resets (.write 0x1F#8 0x00000001#32) :=
  ⟨⟨rfl, _, rfl⟩, trivial, by decide, by decide⟩
theorem test_witness_FaultedRunStaysFaulted : faulted.status.err = true ∧
    (∀ x ∈ ({ faulted with inputs := [.write 0x00#8 0#32, .read 0x0C#8, .rst] } : State).inputs.take 2, ¬ Resets x) ∧
    ∃ t, Sys2Proof.core.run 2 { faulted with inputs := [.write 0x00#8 0#32, .read 0x0C#8, .rst] } = .next t := by
  refine ⟨rfl, ?_, _, rfl⟩
  intro x hx
  simp only [List.take, List.mem_cons, List.not_mem_nil, or_false] at hx
  obtain rfl | rfl := hx
  · exact fun h => absurd h.1 (by decide)
  · exact fun h => h
theorem test_witness_FaultRecordInvariant : faultRecordOk faulted = true ∧ faultRecordOk State.reset = true ∧
    (∃ t, step faulted = .next t) ∧ ∃ t, step { State.reset with inputs := [.write 0x00#8 0x1C000000#32] } = .next t :=
  ⟨by decide, by decide, ⟨_, rfl⟩, ⟨_, rfl⟩⟩
theorem test_witness_CmdWriteRunsDecodedCommand : faulted.status.err = true ∧ State.reset.status.err = false ∧
    decode 0x1C000000#32 = .error .unassignedOpcode ∧ decode 0x00000000#32 = .ok .nop ∧
    decode 0x80400000#32 = .ok (.hexparse 1) := by decide
theorem test_witness_ResetValues : Resets .rst ∧ Resets (.write 0x1C#8 0xFFFFFFFF#32) := ⟨trivial, by decide, by decide⟩
/-- Also of RstAndCtrlResetAlike. -/
theorem test_witness_CtrlWriteResets : wordOffset 0x1C#8 = 0x1C#8 ∧ wordOffset 0x1F#8 = 0x1C#8 ∧
    (0x00000001#32).getLsbD 0 = true ∧ (0xFFFFFFFE#32).getLsbD 0 = false := by decide
/-- An offset for each clause of the window's reads and writes, at the ends of the ranges. -/
theorem test_witness_WindowReads : wordOffset 0x03#8 = 0x00#8 ∧ wordOffset 0x07#8 = 0x04#8 ∧ wordOffset 0x0B#8 = 0x08#8 ∧
    wordOffset 0x0F#8 = 0x0C#8 ∧ wordOffset 0x13#8 = 0x10#8 ∧ wordOffset 0x17#8 = 0x14#8 ∧ wordOffset 0x1B#8 = 0x18#8 ∧
    wordOffset 0x1F#8 = 0x1C#8 ∧ wordOffset 0x23#8 = 0x20#8 ∧ wordOffset 0x27#8 = 0x24#8 ∧ wordOffset 0x2B#8 = 0x28#8 ∧
    (wordOffset 0x43#8).toNat = 0x40 + 4 * 0 ∧ (wordOffset 0x7F#8).toNat = 0x40 + 4 * 15 ∧
    (wordOffset 0x2C#8).toNat = 0x2C ∧ (wordOffset 0x3F#8).toNat = 0x3C ∧ (wordOffset 0x80#8).toNat = 0x80 := by decide
theorem test_witness_WindowWrites : wordOffset 0x0F#8 ∈ [0x0C#8, 0x10#8, 0x14#8, 0x20#8, 0x24#8, 0x28#8] ∧
    0x80 ≤ (wordOffset 0xFF#8).toNat := by decide
theorem test_witness_WindowWriteReadsBack : (∃ t, winWrite 0x43#8 0x44434241#32 State.reset = .next t) ∧
    0x40 ≤ (wordOffset 0x43#8).toNat ∧ (wordOffset 0x7F#8).toNat ≤ 0x7C ∧ wordOffset 0x18#8 = 0x18#8 ∧
    wordOffset 0x43#8 ≠ 0x00#8 ∧ wordOffset 0x43#8 ≠ 0x1C#8 ∧ wordOffset 0x44#8 ≠ wordOffset 0x43#8 :=
  ⟨⟨_, rfl⟩, by decide⟩
theorem test_witness_OffsetLowBitsIgnored : (0x05#8).extractLsb' 2 6 = (0x07#8).extractLsb' 2 6 := by decide
theorem test_witness_NopOnlyCounts : opField 0x00000001#32 = 0x00#6 ∧ (0x00000001#32) ≠ 0#32 ∧ State.reset.status.err = false ∧
    faulted.status.err = true := by decide
theorem test_witness_CommandsSucceedOrFault : State.reset.status.err = false := by decide
theorem test_witness_MovCopies : (2 : VReg) ≠ 1 := by decide
theorem test_witness_LimbReadOrFault : (7 : LimbIdx).val ≤ 7 ∧ 7 < (8 : LimbIdx).val := by decide
theorem test_witness_LimbWriteOrFault : (0 : LimbIdx).val ≤ 7 ∧ 7 < (15 : LimbIdx).val := by decide
theorem test_witness_DivAndModOrFault : (withValues 0x64 1 0).readV 2 ≠ 0#256 ∧ (withValues 0x64 0 0).readV 2 = 0#256 := by decide
theorem test_witness_DivmodGivesBoth : (4 : VReg) ≠ 5 ∧ (withValues maxValue 0xA 0).readV 2 ≠ 0#256 ∧
    (withValues maxValue 0 0).readV 2 = 0#256 := by decide
theorem test_witness_DivisionLawByCommands : [(3 : VReg), 4, 5, 1, 2].Nodup ∧ (withValues maxValue 7 0).readV 2 ≠ 0#256 := by decide
theorem test_witness_ShiftByData : (withValues 1 0 0xFFFFFFFF#64).data.toNat < 2 ^ 32 ∧
    2 ^ 32 ≤ (withValues 1 0 0x100000000#64).data.toNat := by decide
theorem test_witness_ShiftByRegister : ((withValues 1 0xFFFFFFFF 0).readV 2).toNat < 2 ^ 32 ∧
    2 ^ 32 ≤ ((withValues 1 0x100000000 0).readV 2).toNat := by decide
theorem test_witness_LimbShiftsRefineShifts : (0 : Nat) < 32 ∧ (31 : Nat) < 32 ∧ (withValues 1 255 255#64).data.toNat < 256 ∧
    ((withValues 1 255 255#64).readV 2).toNat < 256 := by decide
/-- The clauses of the text's check: lengths 0, 65, 63, and a bad character as the last of 64 (the others '0'). -/
theorem test_witness_HexTextChecks : State.reset.hexlen.toNat = 0 ∧ 64 < (withAll 0#8 65#8).hexlen.toNat ∧
    (withAll 0#8 63#8).hexlen.toNat ≤ 64 ∧ (withAll 0#8 63#8).hexlen.toNat % 2 = 1 ∧
    (∃ s : State, s.hexlen.toNat ≤ 64 ∧ s.hexlen.toNat % 2 = 0 ∧ 63 < s.hexlen.toNat ∧ ¬ IsHexDigit (charAt s 63) ∧
      ∀ j < 63, IsHexDigit (charAt s j)) := by
  refine ⟨rfl, by decide, by decide, by decide,
    { withAll 0x30#8 64#8 with hexbuf := (Vector.replicate 64 0x30#8).set 63 0x67#8 }, by decide, by decide, by decide, ?_, ?_⟩
  · unfold IsHexDigit; decide
  · unfold IsHexDigit; decide
/-- A valid text of 2 characters, the least length, and an empty one. -/
theorem test_witness_HexparseGivesTextNumber : ValidText (withAll 0x46#8 2#8) ∧ ¬ ValidText State.reset := by
  constructor
  · unfold ValidText IsHexDigit; decide
  · exact fun h => absurd h.1 (by decide)
/-- 64 characters, the greatest length. -/
theorem test_witness_HexRoundTrips : ValidText (withAll 0x46#8 64#8) := by unfold ValidText IsHexDigit; decide
theorem test_witness_TrailingZeroCount : (withValues 0 0 0).readV 1 = 0#256 ∧
    (withValues (BitVec.ofNat 256 (2 ^ 255)) 0 0).readV 1 ≠ 0#256 := by decide
theorem test_witness_HashDependsOnLimbsAlone : (withValues 5 5 0).readV 2 = (withValues 5 0 0).readV 1 := by decide
theorem test_witness_HashTwiceGivesEqualSR : (withValues 5 5 0).readV 1 = (withValues 5 5 0).readV 2 := by decide
theorem test_witness_CommandsUseOnlyTheirRegisters : (2 : VReg) ∉ destRegs (.add 3 1 2) ∧ (3 : VReg) ∉ sourceRegs (.add 3 1 2) := by
  decide
theorem test_witness_ScalarRegisterUse : writesSR (.add 3 1 2) = false ∧ readsData (.shlv 3 1 2) = false ∧
    writesSR (.cmpeq 1 2) = true ∧ ∃ t, exec (.cmpeq 1 2) State.reset = .next t ∧ t.ccnt ≠ State.reset.ccnt :=
  ⟨by decide, by decide, by decide, _, rfl, by decide⟩
/-- A command that completes, one that faults, one in the fault state, and a write elsewhere. -/
theorem test_witness_CommandCounter : State.reset.status.err = false ∧ faulted.status.err = true ∧
    (∃ t, winWrite 0x00#8 0#32 State.reset = .next t ∧ t.status.err = false) ∧
    (∃ t, winWrite 0x00#8 1#32 State.reset = .next t ∧ t.status.err = true) ∧
    wordOffset 0x24#8 ≠ 0x00#8 ∧ wordOffset 0x24#8 ≠ 0x1C#8 ∧ ∃ t, winWrite 0x24#8 5#32 State.reset = .next t :=
  ⟨rfl, rfl, ⟨_, rfl, rfl⟩, ⟨_, rfl, rfl⟩, by decide, by decide, ⟨_, rfl⟩⟩
/-- Both widths at their greatest operands. -/
theorem test_witness_IssuedScalarReachesCommand : State.reset.status.err = false ∧ scalarWidth (.limbwr 1 0) = some 32 ∧
    (0xFFFFFFFF : Nat) < 2 ^ 32 ∧ scalarWidth (.shl 2 1) = some 64 ∧ (0xFFFFFFFFFFFFFFFF : Nat) < 2 ^ 64 := by decide
theorem test_witness_Ldi256LoadsValue : State.reset.status.err = false ∧ (1 : VReg) ≠ 7 := by decide

end Sys2Proof.Tests
end

section
/-! PROOFS. The command counter and the control register (10_state.md R113, R115): what a write to CMD, to CTRL and to any
other register does, and the two obligations that follow. -/

namespace Sys2Proof.Machine

section Window

variable {s t : State} {off : BitVec 8} {w : Word}

/-! ### Writes and reads of the window, one register at a time -/

theorem winWrite_cmd (h : wordOffset off = 0x00#8) : winWrite off w s = runCommand w s := by
  rw [winWrite, (winReg_eq_cmd_iff off).mpr h]

theorem winWrite_ctrl (h : wordOffset off = 0x1C#8) :
    winWrite off w s = if w.getLsbD 0 then .next (resetBlock s) else .next s := by
  rw [winWrite, (winReg_eq_ctrl_iff off).mpr h]

theorem winRead_ctrl (h : wordOffset off = 0x1C#8) : winRead off s = 0#32 := by
  rw [winRead, (winReg_eq_ctrl_iff off).mpr h]

/-- A write to any register but CMD and CTRL can set DATA, HEXBUF and HEXLEN, and nothing else (20_memory.md R205). -/
theorem winWrite_outcome_of_ne (hcmd : wordOffset off ≠ 0x00#8) (hctrl : wordOffset off ≠ 0x1C#8)
    (h : winWrite off w s = .next t) : ∃ d hb n, t = { s with data := d, hexbuf := hb, hexlen := n } := by
  have notCmd : winReg off ≠ .cmd := mt (winReg_eq_cmd_iff off).mp hcmd
  have notCtrl : winReg off ≠ .ctrl := mt (winReg_eq_ctrl_iff off).mp hctrl
  unfold winWrite at h
  cases hr : winReg off <;> rw [hr] at h
  case cmd => exact absurd hr notCmd
  case ctrl => exact absurd hr notCtrl
  all_goals
    cases h
    exact ⟨_, _, _, rfl⟩

/-! ### The outcomes of a CMD write (30_encoding.md R320) -/

theorem runCommand_of_err (h : s.status.err = true) : runCommand w s = .next s := by
  simp [runCommand, h]

/-- Outside the fault state a command word answers a next state: its command completed, with writes to v, SR, HEXBUF
and HEXLEN alone, and is counted; or it entered the fault state. -/
theorem runCommand_outcome (h : s.status.err = false) : ∃ t, runCommand w s = .next t ∧
    ((∃ v sr hb n, t = (written s v sr hb n).countCommand) ∨ (∃ c info code, t = faultEntry c info code s)) := by
  cases hd : decode w with
  | error e =>
    have run : runCommand w s = .next (faultEntry .illegalInstr 0#8 w s) := by simp [runCommand, h, hd]
    exact ⟨_, run, .inr ⟨_, _, _, rfl⟩⟩
  | ok i =>
    have run : runCommand w s = exec i s := by simp [runCommand, h, hd]
    obtain ⟨t, ht, completed | ⟨c, info, rfl, -⟩⟩ := exec_outcome s i
    · exact ⟨t, run.trans ht, .inl completed⟩
    · exact ⟨_, run.trans ht, .inr ⟨_, _, _, rfl⟩⟩

/-! ### Reset -/

/-- The state after a reset of the block holds the reset values (70_reset_and_hazards.md R1201). -/
theorem resetBlock_holdsResetValues (s : State) : HoldsResetValues (resetBlock s) :=
  ⟨resetBlock_readV s, rfl, rfl, reset_hexbuf, rfl, rfl, rfl, rfl, rfl, rfl, rfl⟩

end Window

/-! ### The obligations -/

/-- Settles O17: CTRL is one register of the window, and its write is the reset of the block or nothing. -/
theorem ctrlWriteResets : Obligations.CtrlWriteResets := by
  intro s off w hoff
  refine ⟨fun hbit => ⟨resetBlock s, ?_, resetBlock_holdsResetValues s⟩, fun hbit => ?_, winRead_ctrl hoff⟩
  · rw [winWrite_ctrl hoff, if_pos hbit]
  · rw [winWrite_ctrl hoff, hbit, if_neg Bool.false_ne_true]

/-- Settles O54: a CMD write completes and counts, faults and does not count, or is ignored; a write elsewhere than CMD
and CTRL does not reach CCNT. -/
theorem commandCounter : Obligations.CommandCounter := by
  refine ⟨fun w s hok => ?_, fun w s herr => ?_, fun off w s t hcmd hctrl hw => ?_, rfl⟩
  · rw [winWrite_cmd rfl]
    obtain ⟨t, ht, ⟨v, sr, hb, n, rfl⟩ | ⟨c, info, code, rfl⟩⟩ := runCommand_outcome (w := w) hok
    · exact ⟨_, ht, fun _ => countCommand_ccnt_toNat _, fun herr =>
        absurd (hok.symm.trans herr) Bool.false_ne_true⟩
    · exact ⟨_, ht, fun hdone => absurd hdone.symm Bool.false_ne_true, fun _ => faultEntry_ccnt s c info code⟩
  · rw [winWrite_cmd rfl, runCommand_of_err herr]
  · obtain ⟨d, hb, n, rfl⟩ := winWrite_outcome_of_ne hcmd hctrl hw
    rfl

end Sys2Proof.Machine
end

section
/-! PROOFS. The host register window (20_memory.md R203 to R205): what a read returns and what a write does at each word
offset, and the three obligations that follow. -/

namespace Sys2Proof.Machine

/-! ### The halves of a scalar and the fields of STATUS, as numbers -/

theorem scalarLow_toNat (d : Scalar) : (scalarLow d).toNat = d.toNat % 2 ^ 32 := by
  rw [scalarLow, toNat_field, pow_zero, Nat.div_one]

theorem scalarHigh_toNat (d : Scalar) : (scalarHigh d).toNat = d.toNat / 2 ^ 32 := by
  rw [scalarHigh, toNat_field, Nat.mod_eq_of_lt]
  have := d.isLt
  omega

@[simp] theorem scalarLow_append (hi lo : Word) : scalarLow (hi ++ lo) = lo :=
  BitVec.extractLsb'_append_eq_right

@[simp] theorem scalarHigh_append (hi lo : Word) : scalarHigh (hi ++ lo) = hi :=
  BitVec.extractLsb'_append_eq_left

/-- STATUS reads FINFO from bit 8, CAUSE from bit 4, ERR in bit 0, and 0 elsewhere (10_state.md R110). -/
theorem statusWord_toNat (st : Status) : (statusWord st).toNat =
    st.finfo.toNat * 2 ^ 8 + st.cause.toNat * 2 ^ 4 + (if st.err then 1 else 0) := by
  have hbit : (BitVec.ofBool st.err).toNat = if st.err then 1 else 0 := by cases st.err <;> rfl
  have hfits := (st.finfo ++ st.cause ++ 0b000#3 ++ BitVec.ofBool st.err).isLt
  rw [statusWord, BitVec.zeroExtend_eq_setWidth, BitVec.toNat_setWidth, Nat.mod_eq_of_lt (by omega)]
  simp only [toNat_append_eq, BitVec.toNat_ofNat, hbit]
  omega

/-! ### Characters of HEXBUF -/

/-- HEXBUF ends at character 63. -/
theorem charAt_of_le (s : State) {i : Nat} (h : 64 ≤ i) : charAt s i = 0#8 := by
  simp [charAt, h]

/-- Character 4j+b after a write of HEXBUF word j is byte b of the word written. -/
theorem charAt_setHexWord_byte (s : State) (j : Fin 16) (w : Word) (b : Fin 4) :
    charAt { s with hexbuf := setHexWord s.hexbuf j w } (4 * j.val + b.val) = w.extractLsb' (8 * b.val) 8 := by
  rw [charAt_eq _ (by omega)]
  exact setHexWord_byte s.hexbuf j w b

/-- A write of HEXBUF word j leaves every character outside that word. -/
theorem charAt_setHexWord_other (s : State) (j : Fin 16) (w : Word) {i : Nat} (h : i / 4 ≠ j.val) :
    charAt { s with hexbuf := setHexWord s.hexbuf j w } i = charAt s i := by
  by_cases hi : i < 64
  · rw [charAt_eq _ hi, charAt_eq _ hi]
    exact setHexWord_other s.hexbuf j w hi h
  · rw [charAt_of_le _ (by omega), charAt_of_le _ (by omega)]

section Window

variable {s : State} {off o : BitVec 8} {w : Word}

/-! ### An access acts on its word (20_memory.md R203) -/

/-- A word offset is the offset's bits 7 to 2 over two zeros. -/
theorem wordOffset_eq_append (off : BitVec 8) : wordOffset off = off.extractLsb' 2 6 ++ 0#2 := by
  revert off
  decide

theorem winRead_congr (h : winReg off = winReg o) : winRead off s = winRead o s := by
  rw [winRead, winRead, h]

theorem winWrite_congr (h : winReg off = winReg o) : winWrite off w s = winWrite o w s := by
  rw [winWrite, winWrite, h]

/-- A read at an offset is the read at its word offset. -/
theorem winRead_of_wordOffset (h : wordOffset off = o) : winRead off s = winRead o s :=
  winRead_congr (winReg_of_wordOffset h)

/-- A write at an offset is the write at its word offset. -/
theorem winWrite_of_wordOffset (h : wordOffset off = o) : winWrite off w s = winWrite o w s :=
  winWrite_congr (winReg_of_wordOffset h)

/-! ### Reads (20_memory.md R204) -/

theorem winRead_cmd (h : wordOffset off = 0x00#8) : winRead off s = 0#32 := winRead_of_wordOffset h

theorem winRead_dataLo (h : wordOffset off = 0x04#8) : winRead off s = scalarLow s.data := winRead_of_wordOffset h

theorem winRead_dataHi (h : wordOffset off = 0x08#8) : winRead off s = scalarHigh s.data := winRead_of_wordOffset h

theorem winRead_status (h : wordOffset off = 0x0C#8) : winRead off s = statusWord s.status := winRead_of_wordOffset h

theorem winRead_srLo (h : wordOffset off = 0x10#8) : winRead off s = scalarLow s.sr := winRead_of_wordOffset h

theorem winRead_srHi (h : wordOffset off = 0x14#8) : winRead off s = scalarHigh s.sr := winRead_of_wordOffset h

theorem winRead_hexlen (h : wordOffset off = 0x18#8) : winRead off s = s.hexlen.zeroExtend 32 := winRead_of_wordOffset h

theorem winRead_fcmd (h : wordOffset off = 0x20#8) : winRead off s = s.fcmd := winRead_of_wordOffset h

theorem winRead_ccnt (h : wordOffset off = 0x24#8) : winRead off s = s.ccnt := winRead_of_wordOffset h

theorem winRead_id (h : wordOffset off = 0x28#8) : winRead off s = Config.idValue := winRead_of_wordOffset h

theorem winRead_hexbuf {j : Fin 16} (h : (wordOffset off).toNat = 0x40 + 4 * j.val) :
    winRead off s = hexWord s.hexbuf j := by
  rw [winRead, (winReg_eq_hexbuf_iff off j).mpr h]

theorem winRead_reserved
    (h : 0x2C ≤ (wordOffset off).toNat ∧ (wordOffset off).toNat ≤ 0x3C ∨ 0x80 ≤ (wordOffset off).toNat) :
    winRead off s = 0#32 := by
  rw [winRead, (winReg_eq_reserved_iff off).mpr h]

/-! ### Writes (20_memory.md R205) -/

theorem winWrite_dataLo (h : wordOffset off = 0x04#8) :
    winWrite off w s = .next { s with data := scalarHigh s.data ++ w } := winWrite_of_wordOffset h

theorem winWrite_dataHi (h : wordOffset off = 0x08#8) :
    winWrite off w s = .next { s with data := w ++ scalarLow s.data } := winWrite_of_wordOffset h

theorem winWrite_hexlen (h : wordOffset off = 0x18#8) :
    winWrite off w s = .next { s with hexlen := w.extractLsb' 0 8 } := winWrite_of_wordOffset h

theorem winWrite_hexbuf {j : Fin 16} (h : (wordOffset off).toNat = 0x40 + 4 * j.val) :
    winWrite off w s = .next { s with hexbuf := setHexWord s.hexbuf j w } := by
  rw [winWrite, (winReg_eq_hexbuf_iff off j).mpr h]

/-- STATUS, SR, FCMD, CCNT and ID are read-only: a write there is completed and ignored. -/
theorem winWrite_readOnly (h : wordOffset off ∈ [0x0C#8, 0x10#8, 0x14#8, 0x20#8, 0x24#8, 0x28#8]) :
    winWrite off w s = .next s := by
  simp only [List.mem_cons, List.not_mem_nil, or_false] at h
  obtain h | h | h | h | h | h := h <;> exact winWrite_of_wordOffset h

theorem winWrite_reserved
    (h : 0x2C ≤ (wordOffset off).toNat ∧ (wordOffset off).toNat ≤ 0x3C ∨ 0x80 ≤ (wordOffset off).toNat) :
    winWrite off w s = .next s := by
  rw [winWrite, (winReg_eq_reserved_iff off).mpr h]

end Window

/-! ### The obligations -/

/-- Settles O19: the read of each register, as a number where the register is a field of a wider element. -/
theorem windowReads : Obligations.WindowReads := by
  intro s off
  refine ⟨?cmdCtrl, ?dataLo, ?dataHi, ?status, ?srLo, ?srHi, ?hexlen, winRead_fcmd, winRead_ccnt, winRead_id, ?hexbuf,
    winRead_reserved, rfl⟩
  case cmdCtrl => exact fun h => h.elim winRead_cmd winRead_ctrl
  case dataLo => exact fun h => by rw [winRead_dataLo h, scalarLow_toNat]
  case dataHi => exact fun h => by rw [winRead_dataHi h, scalarHigh_toNat]
  case status => exact fun h => by rw [winRead_status h, statusWord_toNat]
  case srLo => exact fun h => by rw [winRead_srLo h, scalarLow_toNat]
  case srHi => exact fun h => by rw [winRead_srHi h, scalarHigh_toNat]
  case hexlen =>
    intro h
    rw [winRead_hexlen h]
    exact BitVec.toNat_setWidth_of_le (by decide)
  case hexbuf =>
    intro j b h
    rw [winRead_hexbuf h, hexWord_byte, charAt_eq]

/-- Settles O20: the write of each register; a half of DATA and a word of HEXBUF keep the rest of their element. -/
theorem windowWrites : Obligations.WindowWrites := by
  intro s off w
  refine ⟨winWrite_cmd, ?cmdIgnored, ?dataLo, ?dataHi, winWrite_hexlen, ?ctrl, ?hexbuf, winWrite_readOnly,
    winWrite_reserved⟩
  case cmdIgnored => exact fun h herr => (winWrite_cmd h).trans (runCommand_of_err herr)
  case dataLo => exact fun h => ⟨_, winWrite_dataLo h, scalarLow_append _ w, scalarHigh_append _ w⟩
  case dataHi => exact fun h => ⟨_, winWrite_dataHi h, scalarHigh_append w _, scalarLow_append w _⟩
  case ctrl =>
    intro h
    rw [winWrite_ctrl h, apply_ite Host.Outcome.next]
  case hexbuf =>
    exact fun j h => ⟨_, winWrite_hexbuf h, charAt_setHexWord_byte s j w, fun _ => charAt_setHexWord_other s j w⟩

/-- Settles O22: the word offset is made of bits 7 to 2 alone, and every write answers. -/
theorem offsetLowBitsIgnored : Obligations.OffsetLowBitsIgnored := by
  intro s a b w
  obtain ⟨t, ht, -⟩ := winWrite_next a w s
  refine ⟨⟨t, ht⟩, fun h => ?_⟩
  have sameReg : winReg a = winReg b := by
    apply winReg_congr
    rw [wordOffset_eq_append, wordOffset_eq_append, h]
  exact ⟨winRead_congr sameReg, winWrite_congr sameReg⟩

end Sys2Proof.Machine
end

section
/-! PROOFS. The decoder and the CMD write (30_encoding.md R311, R313, R320): a word that decodes is its instruction's
encoding, a word decodes unless it is illegal, and the two obligations on what a write to CMD does. -/

namespace Sys2Proof

/-! ### The bits a format compares (30_encoding.md R302) -/

/-- Below its opcode a match value is 0. -/
theorem opMatch_field (op : BitVec 6) {lo len : Nat} (h : lo + len ≤ 26) : (opMatch op).extractLsb' lo len = 0#len := by
  apply BitVec.eq_of_getElem_eq
  intro i hi
  have : lo + i < 26 := by omega
  simp [opMatch, this]

/-- A field the mask compares is 0 in a word that agrees with its match value. -/
theorem field_eq_zero_of_mask {w m : Word} {op : BitVec 6} {lo len : Nat} (h : w &&& m = opMatch op)
    (hlo : lo + len ≤ 26) (hm : m.extractLsb' lo len = BitVec.allOnes len) : w.extractLsb' lo len = 0#len :=
  calc w.extractLsb' lo len
    _ = w.extractLsb' lo len &&& m.extractLsb' lo len := by rw [hm, BitVec.and_allOnes]
    _ = (w &&& m).extractLsb' lo len := BitVec.extractLsb'_and.symm
    _ = 0#len := by rw [h, opMatch_field op hlo]

theorem regField_eq_zero_of_mask {w m : Word} {op : BitVec 6} {lo : Nat} (h : w &&& m = opMatch op)
    (hlo : lo + 4 ≤ 26) (hm : m.extractLsb' lo 4 = BitVec.allOnes 4) : regField w lo = 0 := by
  rw [regField, field_eq_zero_of_mask h hlo hm]
  rfl

/-- The fields with 0 in place of each one the format does not use (30_encoding.md R333). -/
def Format.usedFields : Format → Fields → Fields
  | .n, _    => ⟨0, 0, 0, 0⟩
  | .d, f    => ⟨f.rd, 0, 0, 0⟩
  | .ds, f   => ⟨f.rd, f.rs1, 0, 0⟩
  | .dss, f  => ⟨f.rd, f.rs1, f.rs2, 0⟩
  | .ddss, f => f
  | .s, f    => ⟨0, f.rs1, 0, 0⟩
  | .ss, f   => ⟨0, f.rs1, f.rs2, 0⟩
  | .si, f   => ⟨0, f.rs1, f.rs2, 0⟩
  | .di, f   => ⟨f.rd, 0, f.rs2, 0⟩

/-- A word that agrees with its format's mask has 0 in every field the format does not use. -/
theorem usedFields_fieldsOf {w : Word} {op : BitVec 6} {fmt : Format} (h : w &&& fmt.mask = opMatch op) :
    fmt.usedFields (fieldsOf w) = fieldsOf w := by
  have zero {lo : Nat} (hlo : lo + 4 ≤ 26) (hm : fmt.mask.extractLsb' lo 4 = BitVec.allOnes 4) : 0 = regField w lo :=
    (regField_eq_zero_of_mask h hlo hm).symm
  cases fmt <;> simp only [Format.usedFields, fieldsOf, Fields.mk.injEq, true_and]
  case n => exact ⟨zero (by decide) rfl, zero (by decide) rfl, zero (by decide) rfl, zero (by decide) rfl⟩
  case d => exact ⟨zero (by decide) rfl, zero (by decide) rfl, zero (by decide) rfl⟩
  case ds => exact ⟨zero (by decide) rfl, zero (by decide) rfl⟩
  case dss => exact zero (by decide) rfl
  case s => exact ⟨zero (by decide) rfl, zero (by decide) rfl, zero (by decide) rfl⟩
  case ss => exact ⟨zero (by decide) rfl, zero (by decide) rfl⟩
  case si => exact ⟨zero (by decide) rfl, zero (by decide) rfl⟩
  case di => exact ⟨zero (by decide) rfl, zero (by decide) rfl⟩

/-- Every format compares the reserved bits, so a word that agrees with its mask is its opcode and its fields. -/
theorem eq_pack_of_mask {w : Word} {op : BitVec 6} {fmt : Format} (h : w &&& fmt.mask = opMatch op) :
    w = pack (opField w) (fieldsOf w).rd (fieldsOf w).rs1 (fieldsOf w).rs2 (fieldsOf w).rd2 := by
  have reserved : w.extractLsb' 0 10 = 0#10 := field_eq_zero_of_mask h (by decide) (by cases fmt <;> rfl)
  have split := word_split w
  rwa [reserved] at split

/-! ### The rows of the opcode map (30_encoding.md R310) -/

/-- No two rows share an opcode. -/
theorem row_eq_of_op_eq {a b : OpRow} (ha : a ∈ opcodeTable) (hb : b ∈ opcodeTable) (h : a.op = b.op) : a = b := by
  have nodup : (opcodeTable.map OpRow.op).Nodup := by decide
  exact List.inj_on_of_nodup_map nodup ha hb h

theorem mem_and_op_of_opcodeRow {op : BitVec 6} {row : OpRow} (h : opcodeRow op = some row) :
    row ∈ opcodeTable ∧ row.op = op :=
  ⟨List.mem_of_find?_eq_some h, by simpa using List.find?_some h⟩

/-- The opcodes with no row are those of 30_encoding.md R311(a). -/
theorem opcodeRow_eq_none_iff (op : BitVec 6) :
    opcodeRow op = none ↔ op.toNat ∈ Machine.unassignedOpcodes ∨ 0x28 ≤ op.toNat := by
  rw [← Option.isNone_iff_eq_none]
  revert op
  decide

/-- The encoding of what a row builds is the row's opcode and the fields its format uses. -/
theorem encode_build : ∀ row ∈ opcodeTable, ∀ f, encode (row.build f) =
    pack row.op (row.fmt.usedFields f).rd (row.fmt.usedFields f).rs1 (row.fmt.usedFields f).rs2
      (row.fmt.usedFields f).rd2 := by
  simp [opcodeTable, opcodeRowsLow, opcodeRowsMid, opcodeRowsHigh, encode, Format.usedFields]

/-- A row builds a well-formed instruction except DIVMOD with equal destinations (30_encoding.md R311(c)). -/
theorem wf_build : ∀ row ∈ opcodeTable, ∀ f, (row.build f).wf = true ↔ ¬ (row.op = 0x0D#6 ∧ f.rd = f.rd2) := by
  simp [opcodeTable, opcodeRowsLow, opcodeRowsMid, opcodeRowsHigh, Instr.wf]

/-! ### The words that decode -/

/-- A word that decodes is the encoding of its instruction, with no bit dropped (30_encoding.md R312). -/
theorem encode_of_decode {w : Word} {i : Instr} (h : decode w = .ok i) : encode i = w := by
  obtain ⟨row, hmem, hop, hmask, rfl, -⟩ := decode_ok h
  rw [encode_build row hmem, usedFields_fieldsOf hmask, hop, ← eq_pack_of_mask hmask]

/-- A word with a row decodes exactly when it agrees with the row's mask and what the row builds is well formed. -/
theorem decode_isOk_iff {w : Word} {row : OpRow} (h : opcodeRow (opField w) = some row) :
    (∃ i, decode w = .ok i) ↔ w &&& row.fmt.mask = opMatch (opField w) ∧ (row.build (fieldsOf w)).wf = true := by
  by_cases hmask : w &&& row.fmt.mask = opMatch (opField w) <;>
    by_cases hwf : (row.build (fieldsOf w)).wf = true <;> simp [decode, h, hmask, hwf]

/-- The two destination fields agree as fields exactly when they agree as bits. -/
theorem fieldsOf_rd_eq_rd2_iff (w : Word) :
    (fieldsOf w).rd = (fieldsOf w).rd2 ↔ w.extractLsb' 22 4 = w.extractLsb' 10 4 :=
  ⟨fun h => BitVec.toFin_inj.mp h, fun h => BitVec.toFin_inj.mpr h⟩

/-- A word decodes exactly when it is not illegal (30_encoding.md R311, R313). -/
theorem decode_isOk_iff_not_illegalWord (w : Word) : (∃ i, decode w = .ok i) ↔ ¬ Machine.IllegalWord w := by
  cases hr : opcodeRow (opField w) with
  | none =>
    have illegal : Machine.IllegalWord w := .inl ((opcodeRow_eq_none_iff _).mp hr)
    simp [decode, hr, illegal]
  | some row =>
    have assigned := (opcodeRow_eq_none_iff (opField w)).not.mp (by simp [hr])
    obtain ⟨hmem, hop⟩ := mem_and_op_of_opcodeRow hr
    have reserved : (∃ r ∈ opcodeTable, r.op = opField w ∧ w &&& r.fmt.mask ≠ opMatch (opField w)) ↔
        w &&& row.fmt.mask ≠ opMatch (opField w) := by
      refine ⟨fun ⟨r, hmem', hop', hmask⟩ => ?_, fun hmask => ⟨row, hmem, hop, hmask⟩⟩
      rwa [row_eq_of_op_eq hmem hmem' (hop.trans hop'.symm)]
    rw [decode_isOk_iff hr, wf_build row hmem, hop, fieldsOf_rd_eq_rd2_iff, Machine.IllegalWord, reserved]
    simp only [assigned, false_or, not_or, ne_eq, not_not]

end Sys2Proof

namespace Sys2Proof.Machine

section CmdWrite

variable {w : Word} {s : State} {i : Instr}

/-! ### The CMD write by what its word decodes to (30_encoding.md R320) -/

theorem runCommand_of_decode_error {e : Illegal} (h : s.status.err = false) (hd : decode w = .error e) :
    runCommand w s = .next (faultEntry .illegalInstr 0#8 w s) := by
  simp [runCommand, h, hd]

theorem runCommand_of_decode_ok (h : s.status.err = false) (hd : decode w = .ok i) : runCommand w s = exec i s := by
  simp [runCommand, h, hd]

/-- A write to CMD of a word that does not decode takes ILLEGAL_INSTR and has no other effect. -/
theorem winWrite_cmd_faults_of_decode_error {e : Illegal} (h : s.status.err = false) (hd : decode w = .error e) :
    ∃ t, winWrite 0x00#8 w s = .next t ∧ FaultsWith .illegalInstr 0#8 w s t :=
  ⟨_, (winWrite_cmd rfl).trans (runCommand_of_decode_error h hd), faultEntry_faultsWith s _ _ w⟩

theorem written_countsOneCommand (s : State) (v : Vector Value 16) (sr : Scalar) (hb : Vector Byte 64) (n : Byte) :
    CountsOneCommand s (written s v sr hb n).countCommand :=
  ⟨countCommand_ccnt_toNat _, rfl, rfl, rfl, rfl, rfl⟩

/-- A command answers a next state in which it is counted, or in which it took a fault with FCMD its word. -/
theorem exec_counts_or_faults (i : Instr) (s : State) :
    ∃ t, exec i s = .next t ∧ (CountsOneCommand s t ∨ ∃ c info, FaultsWith c info (encode i) s t) := by
  obtain ⟨t, ht, ⟨v, sr, hb, n, rfl⟩ | ⟨c, info, rfl, -⟩⟩ := exec_outcome s i
  · exact ⟨_, ht, .inl (written_countsOneCommand s v sr hb n)⟩
  · exact ⟨_, ht, .inr ⟨c, info, faultEntry_faultsWith s c info _⟩⟩

end CmdWrite

/-! ### The obligations -/

/-- Settles O3: the opcode map gives each opcode one row, so a word is refused for its opcode, its row's mask, or the
destinations of DIVMOD; and a refused word takes the fault at its decoding. -/
theorem illegalWordsTakeIllegalInstr : Obligations.IllegalWordsTakeIllegalInstr := by
  intro w s
  refine ⟨decode_isOk_iff_not_illegalWord w, fun hok hill => ?_⟩
  cases hd : decode w with
  | ok i => exact absurd hill ((decode_isOk_iff_not_illegalWord w).mp ⟨i, hd⟩)
  | error e => exact winWrite_cmd_faults_of_decode_error hok hd

/-- Settles O5: the three cases of the CMD write; a fault of the decoded command records the word written, which is the
command's encoding. -/
theorem cmdWriteRunsDecodedCommand : Obligations.CmdWriteRunsDecodedCommand := by
  intro w s
  refine ⟨fun herr => (winWrite_cmd rfl).trans (runCommand_of_err herr),
    fun hok _ hd => winWrite_cmd_faults_of_decode_error hok hd, fun hok i hd => ?_⟩
  have outcome := exec_counts_or_faults i s
  rw [encode_of_decode hd] at outcome
  exact ⟨(winWrite_cmd rfl).trans (runCommand_of_decode_ok hok hd), outcome⟩

end Sys2Proof.Machine
end

section
/-! PROOFS. The limb store (40_limb_store.md R400 to R406): the encoding of a well-formed instruction, what each of the seven
commands answers, and the six obligations of the family. -/

namespace Sys2Proof

/-! ### Encodings (30_encoding.md R302, R310, R313) -/

/-- The word of a well-formed instruction decodes to it (30_encoding.md R313). -/
theorem decode_encode {i : Instr} (h : i.wf = true) : decode (encode i) = .ok i := by
  obtain ⟨row, hrow, hfmt, hbuild⟩ := encode_row i
  have hmask := encode_mask i
  rw [← hfmt] at hmask
  simp [decode, hrow, hmask, hbuild, h]

/-- A well-formed instruction has the encoding that its opcode and its format say. -/
theorem encodedAs_of_wf {i : Instr} {op : BitVec 6} {fmt : Format} (hwf : i.wf = true)
    (hop : opField (encode i) = op) (hfmt : i.format = fmt) : Machine.EncodedAs i op fmt := by
  subst hop hfmt
  exact ⟨rfl, rfl, encode_mask i, decode_encode hwf⟩

/-- Format N compares every bit, so of the words of op 0x00 only 0 is legal (40_limb_store.md R400). -/
theorem decode_error_of_op_zero {w : Word} (hop : opField w = 0x00#6) (hw : w ≠ 0#32) :
    decode w = .error .reservedBits := by
  have hrow : opcodeRow 0x00#6 = some ⟨0x00#6, .n, fun _ => .nop⟩ := rfl
  have hmask : ¬ w &&& Format.mask .n = opMatch 0x00#6 := by
    rw [show w &&& Format.mask .n = w from BitVec.and_allOnes]
    exact hw
  simp only [decode, hop, hrow, if_neg hmask]

/-- The word 0 and no other decodes to NOP. -/
theorem decode_eq_nop_iff (w : Word) : decode w = .ok .nop ↔ w = 0#32 := by
  have encoding : encode .nop = 0#32 := rfl
  rw [← encoding]
  exact ⟨fun h => (encode_of_decode h).symm, fun h => h ▸ decode_encode rfl⟩

end Sys2Proof

namespace Sys2Proof.Machine

section LimbStore

variable (s : State) (rd rs1 : VReg) (idx : LimbIdx)

/-! ### What each command answers -/

theorem exec_nop : exec .nop s = .next s.countCommand := rfl

theorem exec_zero : exec (.zero rd) s = .next (s.writeV rd 0#256).countCommand := rfl

theorem exec_mov : exec (.mov rd rs1) s = .next (s.writeV rd (s.readV rs1)).countCommand := rfl

theorem exec_ldi32 : exec (.ldi32 rd) s = .next (s.writeV rd ((scalarLow s.data).zeroExtend 256)).countCommand := rfl

theorem exec_ldi64 : exec (.ldi64 rd) s = .next (s.writeV rd (s.data.zeroExtend 256)).countCommand := rfl

variable {idx}

theorem exec_limbrd_of_lt (h : idx.val < 8) : exec (.limbrd rs1 idx) s =
    .next (s.writeSR ((limb (s.readV rs1) ⟨idx.val, h⟩).zeroExtend 64)).countCommand := dif_pos h

theorem exec_limbrd_of_le (h : 8 ≤ idx.val) : exec (.limbrd rs1 idx) s =
    .next (faultEntry .limbIndex (BitVec.ofNat 8 idx.val) (encode (.limbrd rs1 idx)) s) := dif_neg (Nat.not_lt.mpr h)

theorem exec_limbwr_of_lt (h : idx.val < 8) : exec (.limbwr rd idx) s =
    .next (s.writeV rd (setLimb (s.readV rd) ⟨idx.val, h⟩ (scalarLow s.data))).countCommand := dif_pos h

theorem exec_limbwr_of_le (h : 8 ≤ idx.val) : exec (.limbwr rd idx) s =
    .next (faultEntry .limbIndex (BitVec.ofNat 8 idx.val) (encode (.limbwr rd idx)) s) := dif_neg (Nat.not_lt.mpr h)

/-! ### The value and the frame after a command completes -/

/-- A completed command's destination reads as written; the count of the command does not reach it. -/
theorem readV_countCommand_writeV (x : Value) : (s.writeV rd x).countCommand.readV rd = x :=
  State.writeV_readV_self s rd x

theorem countCommand_writesOnlyV_nil : WritesOnlyV [] s s.countCommand :=
  ⟨fun _ _ => rfl, rfl, rfl, rfl, countCommand_ccnt_toNat s, rfl, rfl, rfl, rfl, rfl⟩

end LimbStore

/-! ### The obligations -/

/-- Settles O27: the low half of DATA is DATA mod 2^32, and a zero extension keeps the number. -/
theorem loadsFromData : Obligations.LoadsFromData := by
  refine ⟨fun rd s => ⟨encodedAs_of_wf rfl (opField_pack ..) rfl, _, exec_ldi32 s rd, ?low, writeV_writesOnlyV s rd _⟩,
    fun rd s => ⟨encodedAs_of_wf rfl (opField_pack ..) rfl, _, exec_ldi64 s rd, ?whole, writeV_writesOnlyV s rd _⟩⟩
  case low =>
    rw [readV_countCommand_writeV, ← scalarLow_toNat]
    exact BitVec.toNat_setWidth_of_le (by decide)
  case whole =>
    rw [readV_countCommand_writeV]
    exact BitVec.toNat_setWidth_of_le (by decide)

/-- Settles O28: SR takes the limb as a number, or the index is refused. -/
theorem limbReadOrFault : Obligations.LimbReadOrFault := by
  intro rs1 idx s
  refine ⟨encodedAs_of_wf rfl (opField_pack ..) rfl, fun hidx => ?read, fun hidx => ?fault⟩
  case read =>
    refine ⟨_, exec_limbrd_of_lt s rs1 (Nat.lt_succ_of_le hidx), ?_, writeSR_writesOnlySR s _⟩
    rw [State.countCommand_sr, State.writeSR_sr, ← limb_toNat (s.readV rs1) ⟨idx.val, Nat.lt_succ_of_le hidx⟩]
    exact BitVec.toNat_setWidth_of_le (by decide)
  case fault =>
    exact ⟨_, exec_limbrd_of_le s rs1 hidx, faultEntry_faultsWith s _ _ _⟩

/-- Settles O29: writing one limb changes that limb and no other, or the index is refused. -/
theorem limbWriteOrFault : Obligations.LimbWriteOrFault := by
  intro rd idx s
  refine ⟨encodedAs_of_wf rfl (opField_pack ..) rfl, fun hidx => ?write, fun hidx => ?fault⟩
  case write =>
    refine ⟨_, exec_limbwr_of_lt s rd (Nat.lt_succ_of_le hidx), fun j => ?_, writeV_writesOnlyV s rd _⟩
    have hlimb := limb_setLimb (s.readV rd) ⟨idx.val, Nat.lt_succ_of_le hidx⟩ j (scalarLow s.data)
    rw [readV_countCommand_writeV]
    simpa only [Fin.ext_iff, limb, scalarLow] using hlimb
  case fault =>
    exact ⟨_, exec_limbwr_of_le s rd hidx, faultEntry_faultsWith s _ _ _⟩

/-- Settles O24: 0 is the encoding of NOP, and format N compares every bit. -/
theorem nopOnlyCounts : Obligations.NopOnlyCounts := by
  refine ⟨decode_eq_nop_iff, encodedAs_of_wf rfl (opField_pack ..) rfl, fun w s hop hw hok => ?illegal,
    fun s herr => ?ignored, fun s => ⟨_, exec_nop s, countCommand_writesOnlyV_nil s⟩⟩
  case illegal => exact winWrite_cmd_faults_of_decode_error hok (decode_error_of_op_zero hop hw)
  case ignored => exact (winWrite_cmd rfl).trans (runCommand_of_err herr)

/-- Settles O25: the written register reads 0, and the write's frame holds the rest. -/
theorem zeroClears : Obligations.ZeroClears := by
  intro rd s
  exact ⟨encodedAs_of_wf rfl (opField_pack ..) rfl, _, exec_zero s rd, readV_countCommand_writeV s rd _,
    writeV_writesOnlyV s rd _⟩

/-- Settles O26: a write to the source is a write to a register other than the copy's. -/
theorem movCopies : Obligations.MovCopies := by
  intro rd rs1 s
  have copied := readV_countCommand_writeV s rd (s.readV rs1)
  refine ⟨encodedAs_of_wf rfl (opField_pack ..) rfl, _, exec_mov s rd rs1, copied, writeV_writesOnlyV s rd _,
    fun hne x => ?_⟩
  rw [State.writeV_readV_of_ne _ x hne, copied]

end Sys2Proof.Machine
end

section
/-! PROOFS. The arithmetic commands (41_arithmetic.md R500 to R505): the word of an ill-formed instruction, what each of the
six commands answers, and the five obligations of the family. -/

namespace Sys2Proof

/-- The word of an ill-formed instruction is refused for its equal destinations (30_encoding.md R311(c)). -/
theorem decode_encode_of_not_wf {i : Instr} (h : i.wf = false) : decode (encode i) = .error .divmodSameDest := by
  obtain ⟨row, hrow, hfmt, hbuild⟩ := encode_row i
  have hmask := encode_mask i
  rw [← hfmt] at hmask
  simp [decode, hrow, hmask, hbuild, h]

theorem divmod_wf_iff (rd rd2 rs1 rs2 : VReg) : (Instr.divmod rd rd2 rs1 rs2).wf = true ↔ rd ≠ rd2 := bne_iff_ne

end Sys2Proof

namespace Sys2Proof.Machine

section Arithmetic

variable (s : State) (rd rd2 rs1 rs2 : VReg)

/-! ### What each command answers -/

theorem exec_add : exec (.add rd rs1 rs2) s =
    .next (s.writeV rd (addValue (s.readV rs1) (s.readV rs2))).countCommand := rfl

theorem exec_sub : exec (.sub rd rs1 rs2) s =
    .next (s.writeV rd (subValue (s.readV rs1) (s.readV rs2))).countCommand := rfl

theorem exec_mul : exec (.mul rd rs1 rs2) s =
    .next (s.writeV rd (mulValue (s.readV rs1) (s.readV rs2))).countCommand := rfl

variable {rs2}

theorem exec_div_of_ne (h : s.readV rs2 ≠ 0#256) : exec (.div rd rs1 rs2) s =
    .next (s.writeV rd (quotient (s.readV rs1) (s.readV rs2))).countCommand := if_neg h

theorem exec_div_of_eq (h : s.readV rs2 = 0#256) : exec (.div rd rs1 rs2) s =
    .next (faultEntry .divByZero 0#8 (encode (.div rd rs1 rs2)) s) := if_pos h

theorem exec_mod_of_ne (h : s.readV rs2 ≠ 0#256) : exec (.mod rd rs1 rs2) s =
    .next (s.writeV rd (remainder (s.readV rs1) (s.readV rs2))).countCommand := if_neg h

theorem exec_mod_of_eq (h : s.readV rs2 = 0#256) : exec (.mod rd rs1 rs2) s =
    .next (faultEntry .divByZero 0#8 (encode (.mod rd rs1 rs2)) s) := if_pos h

theorem exec_divmod_of_ne (h : s.readV rs2 ≠ 0#256) : exec (.divmod rd rd2 rs1 rs2) s =
    .next ((s.writeV rd (quotient (s.readV rs1) (s.readV rs2))).writeV rd2
      (remainder (s.readV rs1) (s.readV rs2))).countCommand := if_neg h

theorem exec_divmod_of_eq (h : s.readV rs2 = 0#256) : exec (.divmod rd rd2 rs1 rs2) s =
    .next (faultEntry .divByZero 0#8 (encode (.divmod rd rd2 rs1 rs2)) s) := if_pos h

/-! ### The values written -/

variable {rd rd2}

/-- Of two writes to different registers the second leaves the first's value. -/
theorem readV_countCommand_writeV_writeV (x y : Value) (h : rd ≠ rd2) :
    ((s.writeV rd x).writeV rd2 y).countCommand.readV rd = x := by
  rw [State.countCommand_readV, State.writeV_readV_of_ne _ y h, State.writeV_readV_self]

/-- A difference of two values, taken with the borrow of 2^256, is the integer difference mod 2^256. -/
theorem subValue_toNat_int (a b : Value) :
    ((subValue a b).toNat : Int) = ((a.toNat : Int) - b.toNat) % 2 ^ 256 := by
  have hb := b.isLt
  rw [subValue_toNat]
  omega

/-- The division law holds exactly, with no wraparound (41_arithmetic.md R505). -/
theorem quotient_mul_add_remainder (a b : Value) :
    a.toNat = (quotient a b).toNat * b.toNat + (remainder a b).toNat := by
  rw [quotient_toNat, remainder_toNat, Nat.div_add_mod']

theorem remainder_lt (a : Value) {b : Value} (h : b ≠ 0#256) : (remainder a b).toNat < b.toNat := by
  rw [remainder_toNat]
  exact Nat.mod_lt _ (Nat.pos_of_ne_zero (BitVec.toNat_ne.mp h))

end Arithmetic

/-! ### The obligations -/

/-- Settles O30: the register written holds the limb loop's sum. -/
theorem addWraps : Obligations.AddWraps := by
  intro rd rs1 rs2 s
  refine ⟨encodedAs_of_wf rfl (opField_pack ..) rfl, _, exec_add s rd rs1 rs2, ?sum, writeV_writesOnlyV s rd _⟩
  case sum => rw [readV_countCommand_writeV, addValue_toNat]

/-- Settles O31: the register written holds the limb loop's difference. -/
theorem subWraps : Obligations.SubWraps := by
  intro rd rs1 rs2 s
  refine ⟨encodedAs_of_wf rfl (opField_pack ..) rfl, _, exec_sub s rd rs1 rs2, ?difference, writeV_writesOnlyV s rd _⟩
  case difference => rw [readV_countCommand_writeV, subValue_toNat_int]

/-- Settles O32: the register written holds the product's low 256 bits. -/
theorem mulKeepsLowHalf : Obligations.MulKeepsLowHalf := by
  intro rd rs1 rs2 s
  refine ⟨encodedAs_of_wf rfl (opField_pack ..) rfl, _, exec_mul s rd rs1 rs2, ?product, writeV_writesOnlyV s rd _⟩
  case product => rw [readV_countCommand_writeV, mulValue_toNat]

/-- Settles O33: by whether the divisor is 0, for each of the two commands. -/
theorem divAndModOrFault : Obligations.DivAndModOrFault := by
  intro rd rs1 rs2 s
  refine ⟨encodedAs_of_wf rfl (opField_pack ..) rfl, encodedAs_of_wf rfl (opField_pack ..) rfl,
    fun hne => ⟨?quotient, ?remainder⟩, fun heq => ⟨?divFault, ?modFault⟩⟩
  case quotient =>
    refine ⟨_, exec_div_of_ne s rd rs1 hne, ?_, writeV_writesOnlyV s rd _⟩
    rw [readV_countCommand_writeV, quotient_toNat]
  case remainder =>
    refine ⟨_, exec_mod_of_ne s rd rs1 hne, ?_, writeV_writesOnlyV s rd _⟩
    rw [readV_countCommand_writeV, remainder_toNat]
  case divFault => exact ⟨_, exec_div_of_eq s rd rs1 heq, faultEntry_faultsWith s _ _ _⟩
  case modFault => exact ⟨_, exec_mod_of_eq s rd rs1 heq, faultEntry_faultsWith s _ _ _⟩

/-- Settles O34: with different destinations both results stand after the two writes, or the divisor is refused; with equal
ones the word is. -/
theorem divmodGivesBoth : Obligations.DivmodGivesBoth := by
  intro rd rd2 rs1 rs2 s
  refine ⟨fun hdest => ⟨encodedAs_of_wf ((divmod_wf_iff ..).mpr hdest) (opField_pack ..) rfl,
    fun hne => ?both, fun heq => ?fault⟩, fun hsame => ?refused⟩
  case both =>
    refine ⟨_, exec_divmod_of_ne s rd rd2 rs1 hne, ?_⟩
    rw [readV_countCommand_writeV_writeV s _ _ hdest, readV_countCommand_writeV]
    exact ⟨quotient_toNat _ _, quotient_mul_add_remainder _ _, remainder_lt _ hne, writeV_writeV_writesOnlyV s rd rd2 _ _⟩
  case fault => exact ⟨_, exec_divmod_of_eq s rd rd2 rs1 heq, faultEntry_faultsWith s _ _ _⟩
  case refused =>
    exact decode_encode_of_not_wf (Bool.eq_false_iff.mpr fun hwf => (divmod_wf_iff ..).mp hwf hsame)

end Sys2Proof.Machine
end

section
/-! PROOFS. The bitwise commands (42_bitwise.md R600 to R603): a limb of a bit-wise operation, what each of the four commands
answers, and the two obligations of the family. -/

namespace Sys2Proof.Machine

/-! ### Limbs of the bit-wise operations -/

theorem limb_and (a b : Value) (k : Fin 8) : limb (a &&& b) k = limb a k &&& limb b k := BitVec.extractLsb'_and

theorem limb_or (a b : Value) (k : Fin 8) : limb (a ||| b) k = limb a k ||| limb b k := BitVec.extractLsb'_or

theorem limb_xor (a b : Value) (k : Fin 8) : limb (a ^^^ b) k = limb a k ^^^ limb b k := BitVec.extractLsb'_xor

theorem limb_allOnes (k : Fin 8) : limb (BitVec.allOnes 256) k = 0xFFFFFFFF#32 := by
  revert k
  decide

/-- A complement is an exclusive or with ones, so its limbs are too (42_bitwise.md R603). -/
theorem limb_not (a : Value) (k : Fin 8) : limb (~~~a) k = limb a k ^^^ 0xFFFFFFFF#32 := by
  rw [← BitVec.xor_allOnes, limb_xor, limb_allOnes]

/-- The complement limb by limb is the complement of the whole value. -/
theorem complementValue_eq (a : Value) : complementValue a = ~~~a := by
  apply eq_of_limbs_eq
  rw [limbs_complementValue]
  simp only [limbs, List.map_cons, List.map_nil, limb_not]

section Bitwise

variable (s : State) (rd rs1 rs2 : VReg)

/-! ### What each command answers -/

theorem exec_and : exec (.and rd rs1 rs2) s =
    .next (s.writeV rd (limbwise (fun a b => a &&& b) (s.readV rs1) (s.readV rs2))).countCommand := rfl

theorem exec_or : exec (.or rd rs1 rs2) s =
    .next (s.writeV rd (limbwise (fun a b => a ||| b) (s.readV rs1) (s.readV rs2))).countCommand := rfl

theorem exec_xor : exec (.xor rd rs1 rs2) s =
    .next (s.writeV rd (limbwise (fun a b => a ^^^ b) (s.readV rs1) (s.readV rs2))).countCommand := rfl

theorem exec_not : exec (.not rd rs1) s =
    .next (s.writeV rd (complementValue (s.readV rs1))).countCommand := rfl

/-! ### The value and the frame after a limb-wise command -/

/-- When an operation on whole values acts on each limb as `f`, the limb-wise command of `f` writes that operation's result,
and nothing else. -/
theorem writeV_limbwise_spec {f : Limb → Limb → Limb} {g : Value → Value → Value}
    (hg : ∀ a b k, limb (g a b) k = f (limb a k) (limb b k)) (a b : Value) :
    let t := (s.writeV rd (limbwise f a b)).countCommand
    t.readV rd = g a b ∧ (∀ k, limb (t.readV rd) k = f (limb a k) (limb b k)) ∧ WritesOnlyV [rd] s t := by
  have written : (s.writeV rd (limbwise f a b)).countCommand.readV rd = g a b :=
    (readV_countCommand_writeV s rd _).trans (limbwise_eq a b (hg a b))
  exact ⟨written, fun k => written ▸ hg a b k, writeV_writesOnlyV s rd _⟩

end Bitwise

/-! ### The obligations -/

/-- Settles O36: the limb-wise loop of each command is its operation on the whole values, since a limb of that operation is the
operation on the limbs. -/
theorem andOrXorByLimbs : Obligations.AndOrXorByLimbs := by
  intro rd rs1 rs2 s
  refine ⟨⟨encodedAs_of_wf rfl (opField_pack ..) rfl, _, exec_and s rd rs1 rs2, ?and⟩,
    ⟨encodedAs_of_wf rfl (opField_pack ..) rfl, _, exec_or s rd rs1 rs2, ?or⟩,
    ⟨encodedAs_of_wf rfl (opField_pack ..) rfl, _, exec_xor s rd rs1 rs2, ?xor⟩⟩
  case and => exact writeV_limbwise_spec s rd limb_and _ _
  case or => exact writeV_limbwise_spec s rd limb_or _ _
  case xor => exact writeV_limbwise_spec s rd limb_xor _ _

/-- Settles O37: the register written holds the whole value's complement, which is 2^256 - 1 minus the value. -/
theorem notComplements : Obligations.NotComplements := by
  intro rd rs1 s
  have written := (readV_countCommand_writeV s rd _).trans (complementValue_eq (s.readV rs1))
  refine ⟨encodedAs_of_wf rfl (opField_pack ..) rfl, _, exec_not s rd rs1, ?number, fun k => ?limb,
    writeV_writesOnlyV s rd _⟩
  case number => rw [written, BitVec.toNat_not]
  case limb => rw [written, limb_not]

end Sys2Proof.Machine
end

section
/-! PROOFS. The shift commands (43_shift.md R700 to R705): the limbs of the limb-level shifts, their agreement with the shifts
of the whole value, what each of the four commands answers, and the three obligations of the family. -/

namespace Sys2Proof.Machine

/-! ### Values limb by limb -/

theorem limb_ofLimbs_range (f : Nat → Limb) (k : Fin 8) : limb (ofLimbs ((List.range 8).map f)) k = f k := by
  have hlimbs : limbs (ofLimbs ((List.range 8).map f)) = (List.range 8).map f := limbs_ofLimbs _ _ _ _ _ _ _ _
  have hk := limbs_getElem? (ofLimbs ((List.range 8).map f)) k
  rw [hlimbs, List.getElem?_map, List.getElem?_range k.isLt] at hk
  exact (Option.some.inj hk).symm

theorem eq_of_forall_limb_toNat_eq {x y : Value} (h : ∀ k, (limb x k).toNat = (limb y k).toNat) : x = y := by
  apply eq_of_limbs_eq
  simp only [limbs, fun k => BitVec.eq_of_toNat_eq (h k)]

theorem limbOrZero_of_not_mem (x : Value) {j : Int} (h : ¬ (0 ≤ j ∧ j < 8)) : limbOrZero x j = 0 := dif_neg h

theorem limbOrZero_of_mem (x : Value) {j : Int} (h : 0 ≤ j ∧ j < 8) :
    limbOrZero x j = x.toNat / 2 ^ (224 - 32 * j.toNat) % 2 ^ 32 := (dif_pos h).trans (limb_toNat x _)

theorem limbOrZero_lt (x : Value) (j : Int) : limbOrZero x j < 2 ^ 32 := by
  unfold limbOrZero
  split
  · exact (limb x _).isLt
  · decide

/-- Counted from the most significant limb, limb m is the top limb of the value moved up by m limbs. -/
theorem limbOrZero_natCast (x : Value) (m : Nat) : limbOrZero x m = x.toNat * 2 ^ (32 * m) / 2 ^ 224 % 2 ^ 32 := by
  by_cases h : m < 8
  · have hpow : (2 : Nat) ^ 224 = 2 ^ (224 - 32 * m) * 2 ^ (32 * m) := by rw [← Nat.pow_add]; congr 1; omega
    rw [limbOrZero_of_mem x (by omega), Int.toNat_natCast, hpow, Nat.mul_div_mul_right _ _ (Nat.two_pow_pos _)]
  · obtain ⟨d, rfl⟩ := Nat.exists_eq_add_of_le (Nat.not_lt.mp h)
    have hpow : (2 : Nat) ^ (32 * (8 + d)) = 2 ^ (32 * d) * 2 ^ 32 * 2 ^ 224 := by
      rw [← Nat.pow_add, ← Nat.pow_add]; congr 1; omega
    rw [limbOrZero_of_not_mem x (by omega), hpow, ← Nat.mul_assoc, Nat.mul_div_cancel _ (Nat.two_pow_pos _),
      ← Nat.mul_assoc, Nat.mul_mod_left]

/-- Counted from the least significant limb, limb 7 - p is the low limb of the value moved down by p limbs. -/
theorem limbOrZero_seven_sub (x : Value) (p : Nat) : limbOrZero x (7 - p) = x.toNat / 2 ^ (32 * p) % 2 ^ 32 := by
  by_cases h : p < 8
  · have hexp : 224 - 32 * (7 - (p : Int)).toNat = 32 * p := by omega
    rw [limbOrZero_of_mem x (by omega), hexp]
  · have hpow : (2 : Nat) ^ 256 ≤ 2 ^ (32 * p) := Nat.pow_le_pow_right (by decide) (by omega)
    rw [limbOrZero_of_not_mem x (by omega), Nat.div_eq_of_lt (lt_of_lt_of_le x.isLt hpow), Nat.zero_mod]

/-! ### Bits leaving one limb enter its neighbour -/

/-- The low limb of a number moved down by t bits: the low limb's upper bits, below the next limb's lower bits. -/
theorem low_limb_div_two_pow (z : Nat) {t u : Nat} (h : t + u = 32) :
    z / 2 ^ t % 2 ^ 32 = (z / 2 ^ 32 % 2 ^ 32 * 2 ^ u + z % 2 ^ 32 / 2 ^ t) % 2 ^ 32 := by
  have hpow : (2 : Nat) ^ 32 = 2 ^ t * 2 ^ u := by rw [← Nat.pow_add, h]
  have split : z / 2 ^ t = z / 2 ^ 32 * 2 ^ u + z % 2 ^ 32 / 2 ^ t := by
    conv_lhs => rw [← Nat.div_add_mod z (2 ^ 32)]
    nth_rw 1 [hpow]
    rw [Nat.mul_assoc, Nat.mul_add_div (Nat.two_pow_pos t), Nat.mul_comm]
  rw [split]
  exact Nat.ModEq.add_right _ ((Nat.mod_modEq _ _).symm.mul_right _)

/-- An upper part below 2^u and a multiple of 2^u below 2^32 do not overlap. -/
theorem div_add_mul_mod_lt {a : Nat} (b : Nat) {s u : Nat} (ha : a < 2 ^ 32) (h : s + u = 32) :
    a / 2 ^ s + b * 2 ^ u % 2 ^ 32 < 2 ^ 32 := by
  have hpow : (2 : Nat) ^ 32 = 2 ^ s * 2 ^ u := by rw [← Nat.pow_add, h]
  have upper : a / 2 ^ s < 2 ^ u := Nat.div_lt_of_lt_mul (hpow ▸ ha)
  have lower : (b % 2 ^ s + 1) * 2 ^ u ≤ 2 ^ s * 2 ^ u :=
    Nat.mul_le_mul_right _ (Nat.mod_lt _ (Nat.two_pow_pos s))
  rw [hpow, Nat.mul_mod_mul_right]
  rw [Nat.succ_mul] at lower
  omega

/-! ### The limb-level shifts (43_shift.md R705) -/

section LimbLevel

variable (x : Value) (q : Nat) {s : Nat} (k : Fin 8)

theorem limb_shiftLeftLimbs (h : s < 32) : (limb (shiftLeftLimbs x (32 * q + s)) k).toNat =
    (limbOrZero x (k.val + q) * 2 ^ s + limbOrZero x (k.val + q + 1) / 2 ^ (32 - s)) % 2 ^ 32 := by
  have hq : (32 * q + s) / 32 = q := by omega
  have hs : (32 * q + s) % 32 = s := by omega
  rw [shiftLeftLimbs, bind_pure_comp, List.map_eq_map, List.map_map, limb_ofLimbs_range, Function.comp_apply,
    BitVec.toNat_ofNat, hq, hs]

theorem limb_shiftRightLimbs (h : s < 32) : (limb (shiftRightLimbs x (32 * q + s)) k).toNat =
    (limbOrZero x ((k.val : Int) - q) / 2 ^ s + limbOrZero x ((k.val : Int) - q - 1) * 2 ^ (32 - s)) % 2 ^ 32 := by
  have hq : (32 * q + s) / 32 = q := by omega
  have hs : (32 * q + s) % 32 = s := by omega
  rw [shiftRightLimbs, limb_ofLimbs_range, BitVec.toNat_ofNat, hq, hs, Nat.add_mod_mod]

/-- A limb of the shifted value, as the low limb of a number moved down by 32 - s bits. -/
theorem limb_shiftLeft (h : s ≤ 32) : (limb (shiftLeft x (32 * q + s)) k).toNat =
    x.toNat * 2 ^ (32 * (k.val + q + 1)) / 2 ^ 224 / 2 ^ (32 - s) % 2 ^ 32 := by
  have hk := k.isLt
  have hmod : (2 : Nat) ^ 256 = 2 ^ (224 - 32 * k.val) * 2 ^ (32 * (k.val + 1)) := by rw [← Nat.pow_add]; congr 1; omega
  have hdvd : (2 : Nat) ^ 32 ∣ 2 ^ (32 * (k.val + 1)) := Nat.pow_dvd_pow 2 (by omega)
  have hexp : 2 ^ (32 * q + s) * (2 ^ (32 * k.val) * 2 ^ (32 - s)) = 2 ^ (32 * (k.val + q + 1)) := by
    rw [← Nat.pow_add, ← Nat.pow_add]; congr 1; omega
  have hdiv : 2 ^ (224 - 32 * k.val) * (2 ^ (32 * k.val) * 2 ^ (32 - s)) = 2 ^ 224 * 2 ^ (32 - s) := by
    rw [← Nat.mul_assoc, ← Nat.pow_add]; congr 2; omega
  have hpos : 0 < 2 ^ (32 * k.val) * 2 ^ (32 - s) := Nat.mul_pos (Nat.two_pow_pos _) (Nat.two_pow_pos _)
  rw [limb_toNat, shiftLeft_toNat, hmod, Nat.mod_mul_right_div_self, Nat.mod_mod_of_dvd _ hdvd,
    ← Nat.mul_div_mul_right _ _ hpos, Nat.mul_assoc, hexp, hdiv, Nat.div_div_eq_div_mul]

theorem limb_shiftRight : (limb (shiftRight x (32 * q + s)) k).toNat =
    x.toNat / 2 ^ (32 * (7 - k.val + q)) / 2 ^ s % 2 ^ 32 := by
  have hk := k.isLt
  rw [limb_toNat, shiftRight_toNat, Nat.div_div_eq_div_mul, Nat.div_div_eq_div_mul, ← Nat.pow_add, ← Nat.pow_add]
  congr 3
  omega

/-- The limb-level left shift is the left shift, for every amount. -/
theorem shiftLeftLimbs_eq (n : Nat) : shiftLeftLimbs x n = shiftLeft x n := by
  have hs : n % 32 < 32 := Nat.mod_lt n (by decide)
  have above (k : Fin 8) : x.toNat * 2 ^ (32 * (k.val + n / 32 + 1)) / 2 ^ 224 / 2 ^ 32 =
      x.toNat * 2 ^ (32 * (k.val + n / 32)) / 2 ^ 224 := by
    rw [Nat.mul_succ, Nat.pow_add, ← Nat.mul_assoc, Nat.div_right_comm, Nat.mul_div_cancel _ (by decide)]
  rw [← Nat.div_add_mod n 32]
  refine eq_of_forall_limb_toNat_eq fun k => ?_
  rw [limb_shiftLeftLimbs x _ k hs, limb_shiftLeft x _ k hs.le, low_limb_div_two_pow _ (Nat.sub_add_cancel hs.le), above,
    ← limbOrZero_natCast, ← limbOrZero_natCast]
  rfl

/-- The limb-level right shift is the right shift, for every amount. -/
theorem shiftRightLimbs_eq (n : Nat) : shiftRightLimbs x n = shiftRight x n := by
  have hs : n % 32 < 32 := Nat.mod_lt n (by decide)
  rw [← Nat.div_add_mod n 32]
  refine eq_of_forall_limb_toNat_eq fun k => ?_
  have hk := k.isLt
  have hlow : (k.val : Int) - (n / 32 : Nat) = 7 - (7 - k.val + n / 32 : Nat) := by omega
  have hnext : (k.val : Int) - (n / 32 : Nat) - 1 = 7 - (7 - k.val + n / 32 + 1 : Nat) := by omega
  rw [limb_shiftRightLimbs x _ k hs, limb_shiftRight x _ k, low_limb_div_two_pow _ (Nat.add_sub_cancel' hs.le), hnext, hlow,
    limbOrZero_seven_sub, limbOrZero_seven_sub, Nat.add_comm, Nat.mul_succ, Nat.pow_add, Nat.div_div_eq_div_mul]

end LimbLevel

section Shift

variable (s : State) (i : Instr) (rd rs1 rs2 : VReg) (x : Value) {n : Nat}

/-! ### What each command answers -/

theorem exec_shl : exec (.shl rd rs1) s =
    shiftCommand (.shl rd rs1) rd (shiftLeft (s.readV rs1) s.data.toNat) s.data.toNat s := rfl

theorem exec_shr : exec (.shr rd rs1) s =
    shiftCommand (.shr rd rs1) rd (shiftRight (s.readV rs1) s.data.toNat) s.data.toNat s := rfl

theorem exec_shlv : exec (.shlv rd rs1 rs2) s =
    shiftCommand (.shlv rd rs1 rs2) rd (shiftLeft (s.readV rs1) (s.readV rs2).toNat) (s.readV rs2).toNat s := rfl

theorem exec_shrv : exec (.shrv rd rs1 rs2) s =
    shiftCommand (.shrv rd rs1 rs2) rd (shiftRight (s.readV rs1) (s.readV rs2).toNat) (s.readV rs2).toNat s := rfl

/-! ### The shift commands' common rule (43_shift.md R700) -/

theorem shiftCommand_writes (h : n < 2 ^ 32) :
    ∃ t, shiftCommand i rd x n s = .next t ∧ t.readV rd = x ∧ WritesOnlyV [rd] s t :=
  ⟨_, shiftCommand_of_lt s i rd x h, readV_countCommand_writeV s rd x, writeV_writesOnlyV s rd x⟩

theorem shiftCommand_faults (h : 2 ^ 32 ≤ n) :
    ∃ t, shiftCommand i rd x n s = .next t ∧ FaultsWith .shiftRange 0#8 (encode i) s t :=
  ⟨_, shiftCommand_of_le s i rd x h, faultEntry_faultsWith s _ _ _⟩

theorem shiftCommand_left_writes (h : n < 2 ^ 32) : ∃ t, shiftCommand i rd (shiftLeft x n) n s = .next t ∧
    (t.readV rd).toNat = x.toNat * 2 ^ n % 2 ^ 256 ∧ WritesOnlyV [rd] s t := by
  obtain ⟨t, ht, hv, frame⟩ := shiftCommand_writes s i rd (shiftLeft x n) h
  exact ⟨t, ht, by rw [hv, shiftLeft_toNat], frame⟩

theorem shiftCommand_right_writes (h : n < 2 ^ 32) : ∃ t, shiftCommand i rd (shiftRight x n) n s = .next t ∧
    (t.readV rd).toNat = x.toNat / 2 ^ n ∧ WritesOnlyV [rd] s t := by
  obtain ⟨t, ht, hv, frame⟩ := shiftCommand_writes s i rd (shiftRight x n) h
  exact ⟨t, ht, by rw [hv, shiftRight_toNat], frame⟩

/-- Every amount below 256 is in range. -/
theorem shiftCommand_readV_of_lt (h : n < 256) : ∃ t, shiftCommand i rd x n s = .next t ∧ t.readV rd = x :=
  ⟨_, shiftCommand_of_lt s i rd x (h.trans (by decide)), readV_countCommand_writeV s rd x⟩

end Shift

/-! ### The obligations -/

/-- Settles O38: both commands are the common rule with DATA as the amount. -/
theorem shiftByData : Obligations.ShiftByData := by
  intro rd rs1 s
  rw [exec_shl, exec_shr]
  refine ⟨encodedAs_of_wf rfl (opField_pack ..) rfl, encodedAs_of_wf rfl (opField_pack ..) rfl,
    fun hlt => ⟨?left, ?right⟩, fun hle => ⟨?leftFault, ?rightFault⟩⟩
  case left => exact shiftCommand_left_writes s _ rd _ hlt
  case right => exact shiftCommand_right_writes s _ rd _ hlt
  case leftFault => exact shiftCommand_faults s _ rd _ hle
  case rightFault => exact shiftCommand_faults s _ rd _ hle

/-- Settles O39: both commands are the common rule with the whole of v[rs2], as it stood before, as the amount. -/
theorem shiftByRegister : Obligations.ShiftByRegister := by
  intro rd rs1 rs2 s
  rw [exec_shlv, exec_shrv]
  refine ⟨encodedAs_of_wf rfl (opField_pack ..) rfl, encodedAs_of_wf rfl (opField_pack ..) rfl,
    fun hlt => ⟨?left, ?right⟩, fun hle => ⟨?leftFault, ?rightFault⟩⟩
  case left => exact shiftCommand_left_writes s _ rd _ hlt
  case right => exact shiftCommand_right_writes s _ rd _ hlt
  case leftFault => exact shiftCommand_faults s _ rd _ hle
  case rightFault => exact shiftCommand_faults s _ rd _ hle

/-- Settles O40: for s = 0 the second term of each equation is 0 by itself, since a limb is below 2^32; the commands' values
are the limb-level form's, which is the shift of the whole value. -/
theorem limbShiftsRefineShifts : Obligations.LimbShiftsRefineShifts := by
  refine ⟨fun x q s k hs => ⟨?leftLimb, ?rightLimb⟩, fun rd rs1 rs2 s => ?commands⟩
  case leftLimb =>
    rw [limb_shiftLeftLimbs x q k hs]
    split
    · next h0 => rw [h0, Nat.div_eq_of_lt (limbOrZero_lt x _)]
    · rfl
  case rightLimb =>
    rw [limb_shiftRightLimbs x q k hs, ← Nat.add_mod_mod,
      Nat.mod_eq_of_lt (div_add_mul_mod_lt _ (limbOrZero_lt x _) (Nat.add_sub_cancel' hs.le))]
    split
    · next h0 => rw [h0, Nat.sub_zero, Nat.mul_mod_left]
    · rfl
  case commands =>
    simp only [exec_shl, exec_shr, exec_shlv, exec_shrv, shiftLeftLimbs_eq, shiftRightLimbs_eq]
    exact ⟨fun h => ⟨shiftCommand_readV_of_lt s _ rd _ h, shiftCommand_readV_of_lt s _ rd _ h⟩,
      fun h => ⟨shiftCommand_readV_of_lt s _ rd _ h, shiftCommand_readV_of_lt s _ rd _ h⟩⟩

end Sys2Proof.Machine
end

section
/-! PROOFS. The comparisons (44_ordering.md R801 to R806): what each of the five commands answers, the rule they share, and the
two obligations of the family. -/

namespace Sys2Proof.Machine

section Ordering

variable (s : State) (rs1 rs2 : VReg)

/-! ### The order of the numbers -/

/-- CMPLE and CMPGE negate lt: not less is at least (44_ordering.md R803, R805). -/
theorem not_ltValue_iff (a b : Value) : (!ltValue a b) = true ↔ b.toNat ≤ a.toNat := by
  rw [Bool.not_eq_true', ← Bool.not_eq_true, ltValue_iff, Nat.not_lt]

/-- Of less, equal and greater exactly one holds, so their truth values as scalars sum to 1 (44_ordering.md R806). -/
theorem trichotomy_sum (a b : Value) :
    (if a.toNat < b.toNat then 1#64 else 0#64).toNat + (if a = b then 1#64 else 0#64).toNat +
      (if b.toNat < a.toNat then 1#64 else 0#64).toNat = 1 := by
  rcases Nat.lt_trichotomy a.toNat b.toNat with less | equal | greater
  · rw [if_pos less, if_neg fun h => less.ne (congrArg _ h), if_neg less.asymm]
    rfl
  · rw [if_neg equal.not_lt, if_pos (BitVec.eq_of_toNat_eq equal), if_neg equal.not_gt]
    rfl
  · rw [if_neg greater.asymm, if_neg fun h => greater.ne' (congrArg _ h), if_pos greater]
    rfl

/-! ### What each command answers -/

theorem exec_cmpeq : exec (.cmpeq rs1 rs2) s = compareCommand (eqValue (s.readV rs1) (s.readV rs2)) s := rfl

theorem exec_cmplt : exec (.cmplt rs1 rs2) s = compareCommand (ltValue (s.readV rs1) (s.readV rs2)) s := rfl

theorem exec_cmple : exec (.cmple rs1 rs2) s = compareCommand (!ltValue (s.readV rs2) (s.readV rs1)) s := rfl

theorem exec_cmpgt : exec (.cmpgt rs1 rs2) s = compareCommand (ltValue (s.readV rs2) (s.readV rs1)) s := rfl

theorem exec_cmpge : exec (.cmpge rs1 rs2) s = compareCommand (!ltValue (s.readV rs1) (s.readV rs2)) s := rfl

/-! ### The comparisons' common rule -/

/-- A comparison completes and sets SR by the relation its truth value decides, and writes nothing else. -/
theorem compareCommand_spec {holds : Bool} {p : Prop} [Decidable p] (h : holds = true ↔ p) :
    ∃ t, compareCommand holds s = .next t ∧ t.sr = (if p then 1#64 else 0#64) ∧ WritesOnlySR s t :=
  ⟨_, rfl, if_congr h rfl rfl, writeSR_writesOnlySR s _⟩

end Ordering

/-! ### The obligations -/

/-- Settles O41: each command is the common rule, with the limb-wise comparison read as the order of the numbers. -/
theorem comparisonsSetSR : Obligations.ComparisonsSetSR := by
  intro rs1 rs2 s
  rw [exec_cmpeq, exec_cmplt, exec_cmple, exec_cmpgt, exec_cmpge]
  refine ⟨⟨encodedAs_of_wf rfl (opField_pack ..) rfl, ?equal⟩, ⟨encodedAs_of_wf rfl (opField_pack ..) rfl, ?less⟩,
    ⟨encodedAs_of_wf rfl (opField_pack ..) rfl, ?atMost⟩, ⟨encodedAs_of_wf rfl (opField_pack ..) rfl, ?greater⟩,
    ⟨encodedAs_of_wf rfl (opField_pack ..) rfl, ?atLeast⟩⟩
  case equal => exact compareCommand_spec s (eqValue_iff _ _)
  case less => exact compareCommand_spec s (ltValue_iff _ _)
  case atMost => exact compareCommand_spec s (not_ltValue_iff _ _)
  case greater => exact compareCommand_spec s (ltValue_iff _ _)
  case atLeast => exact compareCommand_spec s (not_ltValue_iff _ _)

/-- Settles O43: no comparison writes a value register, so all three compare the same two values. -/
theorem trichotomyByCommands : Obligations.TrichotomyByCommands := by
  intro rs1 rs2 s
  obtain ⟨-, ⟨-, t, ht, less, keepsT, -⟩, -⟩ := comparisonsSetSR rs1 rs2 s
  obtain ⟨⟨-, u, hu, equal, keepsU, -⟩, -⟩ := comparisonsSetSR rs1 rs2 t
  obtain ⟨-, -, -, ⟨-, w, hw, greater, -⟩, -⟩ := comparisonsSetSR rs1 rs2 u
  refine ⟨t, u, w, ht, hu, hw, ?_⟩
  rw [less, equal, greater]
  simp only [keepsU, keepsT]
  exact trichotomy_sum _ _

end Sys2Proof.Machine
end

section
/-! PROOFS. The hexadecimal text commands (45_hex.md R901 to R904): the number a list of digits denotes, the digits of a value
and of a text, what each of the two commands answers, and the four obligations of the family. -/

namespace Sys2Proof.Machine

/-! ### Characters and digits (45_hex.md R900) -/

theorem hexChar_toNat (d : Nibble) : (hexChar d).toNat = hexCharCode d.toNat := by
  revert d
  decide

/-- A hex digit in lowercase is the character of its value. -/
theorem lowercase_toNat {c : Byte} (h : IsHexDigit c) : (lowercase c).toNat = hexCharCode (nib c) := by
  obtain decimal | upper | lower := h
  · have value : nib c = c.toNat - 0x30 := if_pos decimal.2
    rw [lowercase, if_neg (by omega), value, hexCharCode, if_pos (by omega)]
    omega
  · have value : nib c = c.toNat - 0x41 + 10 := (if_neg (by omega)).trans (if_pos upper.2)
    rw [lowercase, if_pos upper, value, hexCharCode, if_neg (by omega), BitVec.toNat_add, BitVec.toNat_ofNat]
    omega
  · have value : nib c = c.toNat - 0x61 + 10 := (if_neg (by omega)).trans (if_neg (by omega))
    rw [lowercase, if_neg (by omega), value, hexCharCode, if_neg (by omega)]
    omega

/-- Formatting a digit's value gives its character back, a letter in lowercase. -/
theorem hexChar_of_hexDigit? {c : Byte} {d : Nibble} (h : hexDigit? c = some d) : hexChar d = lowercase c := by
  have digit : IsHexDigit c := (hexDigit?_isSome_iff c).mp (h ▸ rfl)
  apply BitVec.eq_of_toNat_eq
  rw [hexChar_toNat, toNat_of_hexDigit? h, lowercase_toNat digit]

/-! ### The number a list of digits denotes (45_hex.md R902) -/

/-- The first digit is the most significant: digit i of n has the weight b^(n-1-i). -/
theorem ofDigits_reverse_map_range (b : Nat) (f : Nat → Nat) (n : Nat) :
    Nat.ofDigits b ((List.range n).map f).reverse = ∑ i ∈ Finset.range n, f i * b ^ (n - 1 - i) := by
  induction n with
  | zero => rfl
  | succ n ih =>
    have shifted : ∑ i ∈ Finset.range n, f i * b ^ (n - i) = b * ∑ i ∈ Finset.range n, f i * b ^ (n - 1 - i) := by
      rw [Finset.mul_sum]
      refine Finset.sum_congr rfl fun i hi => ?_
      have hexp : n - i = n - 1 - i + 1 := by have := Finset.mem_range.mp hi; omega
      rw [hexp, pow_succ]
      ring
    rw [List.range_succ, List.map_append, List.map_singleton, List.reverse_concat, Nat.ofDigits_cons, ih,
      Finset.sum_range_succ, Nat.add_sub_cancel, shifted, Nat.sub_self, pow_zero, mul_one, add_comm]

/-- The number a list of digits denotes, the first digit the most significant. -/
def digitsNumber (ds : List Nibble) : Nat := Nat.ofDigits 16 (ds.map BitVec.toNat).reverse

theorem digitsNumber_append (ds : List Nibble) (d : Nibble) :
    digitsNumber (ds ++ [d]) = digitsNumber ds * 16 + d.toNat := by
  rw [digitsNumber, List.map_append, List.map_singleton, List.reverse_concat, Nat.ofDigits_cons, Nat.mul_comm, Nat.add_comm]
  rfl

theorem lt_of_mem_digits {ds : List Nibble} : ∀ n ∈ (ds.map BitVec.toNat).reverse, n < 16 := by
  intro n hn
  obtain ⟨d, -, rfl⟩ := List.mem_map.mp (List.mem_reverse.mp hn)
  exact d.isLt

theorem digitsNumber_lt (ds : List Nibble) : digitsNumber ds < 16 ^ ds.length := by
  simpa [digitsNumber] using Nat.ofDigits_lt_base_pow_length (by decide) (lt_of_mem_digits (ds := ds))

/-- Folding up to 64 digits in does not overflow, so it gives their number. -/
theorem foldDigits_toNat {ds : List Nibble} (h : ds.length ≤ 64) : (foldDigits ds).toNat = digitsNumber ds := by
  induction ds using List.reverseRecOn with
  | nil => rfl
  | append_singleton ds d ih =>
    have bound : digitsNumber (ds ++ [d]) < 2 ^ 256 :=
      lt_of_lt_of_le (digitsNumber_lt _) (Nat.pow_le_pow_right (by decide) h)
    rw [List.length_append, List.length_singleton] at h
    have digit : (d.zeroExtend 256).toNat = d.toNat := BitVec.toNat_setWidth_of_le (by decide)
    rw [digitsNumber_append] at bound ⊢
    rw [foldDigits_append, BitVec.toNat_add, BitVec.toNat_mul, ih (by omega), digit, BitVec.toNat_ofNat]
    omega

/-- Lists of digits of one length, up to 64, that fold to one value are equal. -/
theorem foldDigits_inj {ds es : List Nibble} (hlen : ds.length = es.length) (h64 : es.length ≤ 64)
    (h : foldDigits ds = foldDigits es) : ds = es := by
  have same : digitsNumber ds = digitsNumber es := by
    rw [← foldDigits_toNat (hlen.le.trans h64), ← foldDigits_toNat h64, h]
  have reversed : (ds.map BitVec.toNat).reverse = (es.map BitVec.toNat).reverse :=
    Nat.ofDigits_inj_of_len_eq (by decide) (by simp [hlen]) lt_of_mem_digits lt_of_mem_digits same
  exact List.map_injective_iff.mpr (fun _ _ => BitVec.eq_of_toNat_eq) (List.reverse_injective reversed)

/-! ### The padding of a text (45_hex.md R902) -/

/-- A text's digits, padded on the left with 0 to 64. -/
def padDigits (ds : List Nibble) : List Nibble := List.replicate (64 - ds.length) 0#4 ++ ds

theorem parseDigits_eq (ds : List Nibble) : parseDigits ds = foldDigits (padDigits ds) := rfl

theorem padDigits_length {ds : List Nibble} (h : ds.length ≤ 64) : (padDigits ds).length = 64 := by
  rw [padDigits, List.length_append, List.length_replicate, Nat.sub_add_cancel h]

theorem padDigits_of_length_eq {ds : List Nibble} (h : ds.length = 64) : padDigits ds = ds := by
  rw [padDigits, h]
  rfl

/-- Zeros in front do not change the number. -/
theorem digitsNumber_padDigits (ds : List Nibble) : digitsNumber (padDigits ds) = digitsNumber ds := by
  rw [digitsNumber, padDigits, List.map_append, List.map_replicate, List.reverse_append, List.reverse_replicate]
  exact Nat.ofDigits_append_replicate_zero _

theorem parseDigits_toNat {ds : List Nibble} (h : ds.length ≤ 64) : (parseDigits ds).toNat = digitsNumber ds := by
  rw [parseDigits_eq, foldDigits_toNat (padDigits_length h).le, digitsNumber_padDigits]

/-! ### The digits of a value (45_hex.md R903) -/

/-- The 64 digits of a value, the most significant first. -/
def valueDigits (x : Value) : List Nibble := (List.range 64).map fun i => x.extractLsb' (252 - 4 * i) 4

theorem valueDigits_length (x : Value) : (valueDigits x).length = 64 := by
  rw [valueDigits, List.length_map, List.length_range]

theorem foldDigits_valueDigits (x : Value) : foldDigits (valueDigits x) = x :=
  BitVec.eq_of_toNat_eq ((foldDigits_format x 64 le_rfl).trans (Nat.div_one _))

/-- The digits of a value that was read from a text are the text's, padded. -/
theorem valueDigits_parseDigits {ds : List Nibble} (h : ds.length ≤ 64) :
    valueDigits (parseDigits ds) = padDigits ds := by
  have length := padDigits_length h
  exact foldDigits_inj ((valueDigits_length _).trans length.symm) length.le (foldDigits_valueDigits _)

theorem parseDigits_valueDigits (x : Value) : parseDigits (valueDigits x) = x := by
  rw [parseDigits_eq, padDigits_of_length_eq (valueDigits_length x), foldDigits_valueDigits]

/-- A digit of a value as a number. -/
theorem valueDigits_getElem_toNat (x : Value) {i : Nat} (h : i < (valueDigits x).length) :
    (valueDigits x)[i].toNat = x.toNat / 16 ^ (63 - i) % 16 := by
  have hpow : (16 : Nat) ^ (63 - i) = 2 ^ (252 - 4 * i) := by
    rw [show (16 : Nat) = 2 ^ 4 from rfl, ← Nat.pow_mul]
    congr 1
    omega
  simp only [valueDigits, List.getElem_map, List.getElem_range, toNat_field, hpow]
  rfl

section Text

variable (s : State) {ds : List Nibble}

/-! ### The digits of a text -/

/-- The text is HEXLEN and the characters before it, so its check sees nothing else (45_hex.md R901). -/
theorem checkText_congr {t : State} (hlen : t.hexlen = s.hexlen)
    (hchar : ∀ i < s.hexlen.toNat, charAt t i = charAt s i) : checkText t = checkText s := by
  have text : t.text = s.text := by
    apply List.ext_getElem
    · simp [State.text, hlen]
    · intro i ht hs
      simp only [State.text, List.length_take, Vector.length_toList, lt_inf_iff] at hs
      have := hchar i hs.1
      rw [charAt_eq _ hs.2, charAt_eq _ hs.2] at this
      simpa [State.text] using this
  unfold checkText
  rw [hlen, text]

variable {s}

/-- A text that passes the check is in range and even, and its digits are those of its characters. -/
theorem checkText_ok (h : checkText s = .ok ds) : 0 < s.hexlen.toNat ∧ s.hexlen.toNat ≤ 64 ∧ s.hexlen.toNat % 2 = 0 ∧
    s.text.map hexDigit? = ds.map some := by
  have nonempty : s.hexlen.toNat ≠ 0 := fun e => nomatch (checkText_empty s e).symm.trans h
  have fits : s.hexlen.toNat ≤ 64 := Nat.not_lt.mp fun e => nomatch (checkText_tooLong s e).symm.trans h
  have even : s.hexlen.toNat % 2 ≠ 1 := fun e => nomatch (checkText_odd s fits e).symm.trans h
  refine ⟨Nat.pos_of_ne_zero nonempty, fits, by omega, ?_⟩
  rw [checkText_scan s (by omega) fits (by omega)] at h
  cases hs : scanDigits s.text 0 with
  | error i => rw [hs] at h; cases h
  | ok es =>
    rw [hs] at h
    cases h
    exact (scanDigits_ok_iff _ _ _).mp hs

theorem digits_length (h : checkText s = .ok ds) : ds.length = s.hexlen.toNat := by
  obtain ⟨-, fits, -, digits⟩ := checkText_ok h
  rw [← text_length s fits, ← List.length_map (f := some), ← digits, List.length_map]

theorem digits_length_le (h : checkText s = .ok ds) : ds.length ≤ 64 := by
  obtain ⟨-, fits, -⟩ := checkText_ok h
  rwa [digits_length h]

/-- Digit i of a text is the value of its character i. -/
theorem hexDigit?_charAt (h : checkText s = .ok ds) {i : Nat} (hi : i < s.hexlen.toNat) :
    hexDigit? (charAt s i) = ds[i]? := by
  obtain ⟨-, fits, -, digits⟩ := checkText_ok h
  have entry := congrArg (·[i]?) digits
  have hi' : i < ds.length := digits_length h ▸ hi
  simpa [text_getElem? s fits hi, hi'] using entry

theorem validText_of_checkText_ok (h : checkText s = .ok ds) : ValidText s := by
  obtain ⟨nonempty, fits, even, -⟩ := checkText_ok h
  refine ⟨nonempty, fits, even, fun i hi => ?_⟩
  rw [← hexDigit?_isSome_iff, hexDigit?_charAt h hi, isSome_getElem?]
  exact digits_length h ▸ hi

/-- The digits of a valid text denote its number (45_hex.md R902). -/
theorem digitsNumber_eq_textNumber (h : checkText s = .ok ds) : digitsNumber ds = textNumber s := by
  have values : ds.map BitVec.toNat = (List.range s.hexlen.toNat).map fun i => nib (charAt s i) := by
    apply List.ext_getElem
    · simp [digits_length h]
    · intro i hi hn
      simp only [List.length_map, List.length_range] at hi hn
      have digit := (hexDigit?_charAt h hn).trans (List.getElem?_eq_getElem hi)
      simpa using toNat_of_hexDigit? digit
  rw [digitsNumber, values, ofDigits_reverse_map_range]
  rfl

/-- Character i of a padded text, formatted: '0' in the padding, then the text in lowercase (45_hex.md R904). -/
theorem hexChar_padDigits (h : checkText s = .ok ds) {i : Nat} (hi : i < (padDigits ds).length) :
    hexChar (padDigits ds)[i] =
      if i < 64 - s.hexlen.toNat then 0x30#8 else lowercase (charAt s (i - (64 - s.hexlen.toNat))) := by
  rw [padDigits_length (digits_length_le h)] at hi
  simp only [padDigits, List.getElem_append, List.length_replicate, digits_length h]
  split
  · rw [List.getElem_replicate]
    rfl
  · apply hexChar_of_hexDigit?
    rw [hexDigit?_charAt h (by omega)]
    exact List.getElem?_eq_getElem _

end Text

section Commands

variable (s : State) (rd rs1 : VReg)

/-! ### What each command answers -/

theorem exec_hexfmt : exec (.hexfmt rs1) s = .next (s.writeText (formatValue (s.readV rs1)) 64#8).countCommand := rfl

variable {s}

theorem exec_hexparse_of_ok {ds : List Nibble} (h : checkText s = .ok ds) :
    exec (.hexparse rd) s = .next (s.writeV rd (parseDigits ds)).countCommand := by
  rw [exec, execHexparse, h]
  rfl

theorem exec_hexparse_of_error {e : Violation} (h : checkText s = .error e) :
    exec (.hexparse rd) s = .next (faultEntry e.cause e.info (encode (.hexparse rd)) s) := by
  rw [exec, execHexparse, h]
  rfl

/-- HEXPARSE of a text that fails its check takes the fault that the check reports. -/
theorem exec_hexparse_faults {c : Cause} {info : Byte} (h : checkText s = .error ⟨c, info⟩) :
    ∃ t, exec (.hexparse rd) s = .next t ∧ FaultsWith c info (encode (.hexparse rd)) s t :=
  ⟨_, exec_hexparse_of_error rd h, faultEntry_faultsWith s _ _ _⟩

/-! ### The text of a value -/

variable (s)

theorem charAt_formatValue (x : Value) (n : Byte) {i : Nat} (h : i < (valueDigits x).length) :
    charAt (s.writeText (formatValue x) n).countCommand i = hexChar (valueDigits x)[i] := by
  rw [charAt_eq _ (valueDigits_length x ▸ h)]
  simp [formatValue, valueDigits]

/-- The text that HEXFMT leaves is valid, and its digits are the value's. -/
theorem checkText_formatValue (x : Value) :
    checkText (s.writeText (formatValue x) 64#8).countCommand = .ok (valueDigits x) := by
  have text : (s.writeText (formatValue x) 64#8).countCommand.text = (valueDigits x).map hexChar := by
    rw [valueDigits, ← formatValue_toList, State.text]
    exact List.take_of_length_le Vector.length_toList.le
  have length : (s.writeText (formatValue x) 64#8).countCommand.hexlen.toNat = 64 := rfl
  rw [checkText_scan _ (by omega) length.le (by omega), text, scanDigits_map_hexChar]

end Commands

/-! ### The obligations -/

/-- Settles O44: each failed check is the fault HEXPARSE takes, and a change of the bytes past the text changes neither the
check nor anything HEXPARSE writes. -/
theorem hexTextChecks : Obligations.HexTextChecks := by
  intro rd s
  refine ⟨fun empty => exec_hexparse_faults rd (checkText_empty s empty),
    fun long => exec_hexparse_faults rd (checkText_tooLong s long),
    fun fits odd => exec_hexparse_faults rd (checkText_odd s fits odd),
    fun i fits even hi bad good => exec_hexparse_faults rd (checkText_badChar s fits even hi bad good),
    fun hb hchar => ?ignored⟩
  case ignored =>
    have same : checkText { s with hexbuf := hb } = checkText s := checkText_congr s rfl hchar
    cases h : checkText s with
    | ok ds => exact ⟨_, exec_hexparse_of_ok rd h, exec_hexparse_of_ok rd (same.trans h)⟩
    | error e => exact ⟨_, exec_hexparse_of_error rd h, exec_hexparse_of_error rd (same.trans h)⟩

/-- Settles O45: HEXPARSE folds the digits of a valid text into the number they denote; any other text fails its check. -/
theorem hexparseGivesTextNumber : Obligations.HexparseGivesTextNumber := by
  intro rd s
  refine ⟨encodedAs_of_wf rfl (opField_pack ..) rfl, fun valid => ?number, fun invalid => ?fault⟩
  case number =>
    obtain ⟨ds, h, -⟩ := checkText_valid s valid
    refine ⟨_, exec_hexparse_of_ok rd h, ?_, writeV_writesOnlyV s rd _⟩
    rw [readV_countCommand_writeV, parseDigits_toNat (digits_length_le h), digitsNumber_eq_textNumber h]
  case fault =>
    cases h : checkText s with
    | ok ds => exact absurd (validText_of_checkText_ok h) invalid
    | error e =>
      refine ⟨_, e.cause, e.info, exec_hexparse_of_error rd h, ?_, faultEntry_faultsWith s _ _ _⟩
      obtain ⟨rfl, -⟩ | ⟨rfl, -⟩ | ⟨rfl, -⟩ | ⟨i, rfl, -⟩ := checkText_error_cases s h <;> simp

/-- Settles O46: a character written is its digit's, and a digit of a value is a nibble of the number. -/
theorem hexfmtWritesDigits : Obligations.HexfmtWritesDigits := by
  intro rs1 s
  refine ⟨encodedAs_of_wf rfl (opField_pack ..) rfl, _, exec_hexfmt s rs1, rfl, writeText_writesOnlyText s _ _,
    fun i hi => ?digit⟩
  case digit =>
    rw [charAt_formatValue s _ _ ((valueDigits_length _).symm ▸ hi), hexChar_toNat, valueDigits_getElem_toNat]

/-- Settles O47: a value folded from its own digits is the value, and the digits of a value folded from a text are the text's
with the padding. -/
theorem hexRoundTrips : Obligations.HexRoundTrips := by
  refine ⟨fun rd rs s => ?formatThenParse, fun r s valid => ?parseThenFormat⟩
  case formatThenParse =>
    refine ⟨_, _, exec_hexfmt s rs, exec_hexparse_of_ok rd (checkText_formatValue s _), ?_, ?_⟩
    · simp only [State.countCommand_status, State.writeV_status, State.writeText_status]
    · rw [readV_countCommand_writeV, parseDigits_valueDigits]
  case parseThenFormat =>
    obtain ⟨ds, h, -⟩ := checkText_valid s valid
    have digits : valueDigits ((s.writeV r (parseDigits ds)).countCommand.readV r) = padDigits ds := by
      rw [readV_countCommand_writeV, valueDigits_parseDigits (digits_length_le h)]
    refine ⟨_, _, exec_hexparse_of_ok r h, exec_hexfmt _ r, rfl, fun i hi => ?_⟩
    rw [charAt_formatValue _ _ _ ((valueDigits_length _).symm ▸ hi), List.getElem_of_eq digits, hexChar_padDigits h]

end Sys2Proof.Machine
end

section
/-! PROOFS. Narrowing, trailing-zero count and hash (46_convert_hash.md R1000 to R1003): the low limbs of a value as numbers,
what each of the four commands answers, and the three obligations of the family. -/

namespace Sys2Proof.Machine

/-! ### The low limbs of a value -/

/-- Limb 7 is the number's low 32 bits (46_convert_hash.md R1000). -/
theorem limb_seven_toNat (x : Value) : (limb x 7).toNat = x.toNat % 2 ^ 32 := by
  have h := limb_toNat x 7
  rwa [show 224 - 32 * (7 : Fin 8).val = 0 from rfl, pow_zero, Nat.div_one] at h

/-- Limbs 6 and 7 are the number's low 64 bits (46_convert_hash.md R1001). -/
theorem limb_six_append_limb_seven_toNat (x : Value) : (limb x 6 ++ limb x 7).toNat = x.toNat % 2 ^ 64 := by
  have six : (limb x 6).toNat = x.toNat / 2 ^ 32 % 2 ^ 32 := limb_toNat x 6
  rw [toNat_append_eq, six, limb_seven_toNat]
  omega

/-! ### The hash of a value -/

/-- HASHFN of a value's limbs, limb 0 first (46_convert_hash.md R1003). -/
def hashValue (x : Value) : Scalar :=
  Config.hashFn #v[limb x 0, limb x 1, limb x 2, limb x 3, limb x 4, limb x 5, limb x 6, limb x 7]

section Convert

variable (s : State) (rs1 : VReg)

/-! ### What each command answers -/

theorem exec_trunc32 : exec (.trunc32 rs1) s =
    .next (s.writeSR ((limb (s.readV rs1) 7).zeroExtend 64)).countCommand := rfl

theorem exec_trunc64 : exec (.trunc64 rs1) s =
    .next (s.writeSR (limb (s.readV rs1) 6 ++ limb (s.readV rs1) 7)).countCommand := rfl

theorem exec_tzcnt : exec (.tzcnt rs1) s =
    .next (s.writeSR (BitVec.ofNat 64 (trailingZeros (s.readV rs1)))).countCommand := rfl

theorem exec_hash : exec (.hash rs1) s = .next (s.writeSR (hashValue (s.readV rs1))).countCommand := rfl

/-! ### The scalar after a command completes -/

/-- The count of a command does not reach the scalar it wrote. -/
theorem sr_countCommand_writeSR (x : Scalar) : (s.writeSR x).countCommand.sr = x := rfl

end Convert

/-! ### The obligations -/

/-- Settles O48: limb 7 is the low 32 bits and limbs 6 and 7 are the low 64, which hold all of a value loaded from DATA. -/
theorem truncationsTakeLowBits : Obligations.TruncationsTakeLowBits := by
  intro rs1 s
  refine ⟨⟨encodedAs_of_wf rfl (opField_pack ..) rfl, _, exec_trunc32 s rs1, ?low32, writeSR_writesOnlySR s _⟩,
    ⟨encodedAs_of_wf rfl (opField_pack ..) rfl, _, exec_trunc64 s rs1, ?low64, writeSR_writesOnlySR s _⟩,
    _, _, exec_ldi64 s rs1, exec_trunc64 _ rs1, ?inverse⟩
  case low32 =>
    rw [sr_countCommand_writeSR, ← limb_seven_toNat]
    exact BitVec.toNat_setWidth_of_le (by decide)
  case low64 => exact limb_six_append_limb_seven_toNat _
  case inverse =>
    have loaded : (s.data.zeroExtend 256).toNat = s.data.toNat := BitVec.toNat_setWidth_of_le (by decide)
    apply BitVec.eq_of_toNat_eq
    rw [sr_countCommand_writeSR, limb_six_append_limb_seven_toNat, readV_countCommand_writeV, loaded,
      Nat.mod_eq_of_lt s.data.isLt]

/-- Settles O49: a count is at most 256, so SR holds it whole, and the count of a non-zero value is its lowest set bit. -/
theorem trailingZeroCount : Obligations.TrailingZeroCount := by
  intro rs1 s
  refine ⟨encodedAs_of_wf rfl (opField_pack ..) rfl, _, exec_tzcnt s rs1, writeSR_writesOnlySR s _,
    fun zero => ?none, fun nonzero => ?lowest⟩
  case none => rw [sr_countCommand_writeSR, zero, trailingZeros_zero]
  case lowest =>
    have lowest := trailingZeros_of_ne _ nonzero
    have count : (BitVec.ofNat 64 (trailingZeros (s.readV rs1))).toNat = trailingZeros (s.readV rs1) := by
      obtain ⟨bound, -⟩ := lowest
      rw [BitVec.toNat_ofNat, Nat.mod_eq_of_lt (by omega)]
    rwa [sr_countCommand_writeSR, count]

/-- Settles O57: HASH writes no value register, so the second command hashes the value its register held at the start. -/
theorem hashTwiceGivesEqualSR : Obligations.HashTwiceGivesEqualSR := by
  intro rs1 rs2 s
  refine ⟨encodedAs_of_wf rfl (opField_pack ..) rfl, _, _, exec_hash s rs1, exec_hash _ rs2,
    writeSR_writesOnlySR s _, writeSR_writesOnlySR _ _, sr_countCommand_writeSR s (hashValue _), fun equal => ?same⟩
  case same =>
    rw [sr_countCommand_writeSR, sr_countCommand_writeSR, State.countCommand_readV, State.writeSR_readV, equal]

end Sys2Proof.Machine
end

section
/-! PROOFS. Faults (60_exceptions.md R1101 to R1105): what each cause records, that a CMD write takes a fault exactly when
a cause's condition holds, that STATUS bears on no access but CMD's and its own read, and the four obligations of the
family. -/

namespace Sys2Proof.Machine

/-- No two causes share a code (60_exceptions.md R1102). -/
theorem Cause.code_injective : Function.Injective Cause.code := by
  intro a b
  cases a <;> cases b <;> decide

/-- What FINFO holds when the word `w` faults with a cause (60_exceptions.md R1103). -/
def RecordsInfo (w : Word) (s : State) (info : Byte) : Cause → Prop
  | .illegalInstr | .divByZero | .shiftRange | .hexEmpty => info = 0#8
  | .limbIndex => ∃ r idx, (decode w = .ok (.limbrd r idx) ∨ decode w = .ok (.limbwr r idx)) ∧
      info.toNat = idx.val ∧ 8 ≤ idx.val
  | .hexTooLong | .hexOddLength => info = s.hexlen
  | .hexBadChar => info.toNat < s.hexlen.toNat ∧ info.toNat ≤ 63 ∧ ¬ IsHexDigit (charAt s info.toNat) ∧
      ∀ j < info.toNat, IsHexDigit (charAt s j)

section Faults

variable {w : Word} {s t : State} {i : Instr} {c : Cause} {info : Byte}

/-! ### A cause's condition and its fault -/

theorem illegalWord_of_decode_error {e : Illegal} (hd : decode w = .error e) : IllegalWord w := by
  by_contra legal
  obtain ⟨i, hi⟩ := (decode_isOk_iff_not_illegalWord w).mpr legal
  exact nomatch hd.symm.trans hi

/-- A fault of the decoded command is a fault of its word. -/
theorem runCommand_faults_of_exec (hok : s.status.err = false) (hd : decode w = .ok i)
    (hx : exec i s = .next (faultEntry c info (encode i) s)) : runCommand w s = .next (faultEntry c info w s) := by
  rw [runCommand_of_decode_ok hok hd, hx, encode_of_decode hd]

/-- A text of a length in range and even, with a bad character, fails its check at the lowest one (45_hex.md R901). -/
theorem checkText_lowest_badChar (fits : s.hexlen.toNat ≤ 64) (even : s.hexlen.toNat % 2 = 0)
    (bad : ∃ i < s.hexlen.toNat, ¬ IsHexDigit (charAt s i)) :
    ∃ k < s.hexlen.toNat, checkText s = .error ⟨.hexBadChar, BitVec.ofNat 8 k⟩ ∧ ¬ IsHexDigit (charAt s k) ∧
      ∀ j < k, IsHexDigit (charAt s j) := by
  obtain ⟨i, hi, hbad⟩ := bad
  cases h : checkText s with
  | ok ds =>
    obtain ⟨-, -, -, digits⟩ := validText_of_checkText_ok h
    exact absurd (digits i hi) hbad
  | error e =>
    obtain ⟨-, empty⟩ | ⟨-, long⟩ | ⟨-, -, odd⟩ | ⟨k, rfl, -, -, hk, lowest⟩ := checkText_error_cases s h
    · omega
    · omega
    · omega
    · exact ⟨k, hk, rfl, lowest⟩

/-- A word for which a cause's condition holds takes that fault, with the cause's information. -/
theorem runCommand_of_causeHolds (hok : s.status.err = false) (h : CauseHolds w s c) :
    ∃ info, runCommand w s = .next (faultEntry c info w s) ∧ RecordsInfo w s info c := by
  cases c with
  | illegalInstr =>
    cases hd : decode w with
    | ok i => exact absurd h ((decode_isOk_iff_not_illegalWord w).mp ⟨i, hd⟩)
    | error e => exact ⟨_, runCommand_of_decode_error hok hd, rfl⟩
  | divByZero =>
    obtain ⟨rd, rd2, rs1, rs2, zero, hd | hd | hd⟩ := h
    · exact ⟨_, runCommand_faults_of_exec hok hd (exec_div_of_eq s rd rs1 zero), rfl⟩
    · exact ⟨_, runCommand_faults_of_exec hok hd (exec_mod_of_eq s rd rs1 zero), rfl⟩
    · exact ⟨_, runCommand_faults_of_exec hok hd (exec_divmod_of_eq s rd rd2 rs1 zero), rfl⟩
  | shiftRange =>
    obtain ⟨rd, rs1, rs2, ⟨large, hd | hd⟩ | ⟨large, hd | hd⟩⟩ := h
    all_goals exact ⟨_, runCommand_faults_of_exec hok hd (shiftCommand_of_le s _ rd _ large), rfl⟩
  | limbIndex =>
    obtain ⟨r, idx, high, hd⟩ := h
    have index : (BitVec.ofNat 8 idx.val).toNat = idx.val := Nat.mod_eq_of_lt (by omega)
    refine ⟨_, ?_, r, idx, hd, index, high⟩
    obtain hd | hd := hd
    · exact runCommand_faults_of_exec hok hd (exec_limbrd_of_le s r high)
    · exact runCommand_faults_of_exec hok hd (exec_limbwr_of_le s r high)
  | hexEmpty =>
    obtain ⟨rd, hd, empty⟩ := h
    exact ⟨_, runCommand_faults_of_exec hok hd (exec_hexparse_of_error rd (checkText_empty s empty)), rfl⟩
  | hexTooLong =>
    obtain ⟨rd, hd, long⟩ := h
    exact ⟨_, runCommand_faults_of_exec hok hd (exec_hexparse_of_error rd (checkText_tooLong s long)), rfl⟩
  | hexOddLength =>
    obtain ⟨rd, hd, fits, odd⟩ := h
    exact ⟨_, runCommand_faults_of_exec hok hd (exec_hexparse_of_error rd (checkText_odd s (by omega) odd)), rfl⟩
  | hexBadChar =>
    obtain ⟨rd, hd, fits, even, bad⟩ := h
    obtain ⟨k, hk, check, lowest⟩ := checkText_lowest_badChar fits even bad
    have index : (BitVec.ofNat 8 k).toNat = k := Nat.mod_eq_of_lt (by omega)
    refine ⟨_, runCommand_faults_of_exec hok hd (exec_hexparse_of_error rd check), ?_⟩
    rw [RecordsInfo, index]
    exact ⟨hk, by omega, lowest⟩

/-! ### A word for which no cause's condition holds -/

/-- A shift completes, or its amount is out of range. -/
theorem shiftCommand_completes_or_le (s : State) (i : Instr) (rd : VReg) (x : Value) (n : Nat) :
    (∃ v sr hb m, shiftCommand i rd x n s = .next (written s v sr hb m).countCommand) ∨ 2 ^ 32 ≤ n := by
  obtain small | large := Nat.lt_or_ge n (2 ^ 32)
  · exact .inl ⟨_, _, _, _, shiftCommand_of_lt s i rd x small⟩
  · exact .inr large

/-- A decoded command completes, or the condition of one of its causes holds (60_exceptions.md R1102). -/
theorem exec_completes_or_causeHolds (s : State) (hd : decode w = .ok i) :
    (∃ v sr hb n, exec i s = .next (written s v sr hb n).countCommand) ∨ ∃ c, CauseHolds w s c := by
  cases i with
  | nop | zero | mov | ldi32 | ldi64 | add | sub | mul | and | or | xor | not | cmpeq | cmplt | cmple | cmpgt | cmpge
  | hexfmt | trunc32 | trunc64 | tzcnt | hash => exact .inl ⟨_, _, _, _, rfl⟩
  | limbrd rs1 idx =>
    obtain low | high := Nat.lt_or_ge idx.val 8
    · exact .inl ⟨_, _, _, _, exec_limbrd_of_lt s rs1 low⟩
    · exact .inr ⟨.limbIndex, rs1, idx, high, .inl hd⟩
  | limbwr rd idx =>
    obtain low | high := Nat.lt_or_ge idx.val 8
    · exact .inl ⟨_, _, _, _, exec_limbwr_of_lt s rd low⟩
    · exact .inr ⟨.limbIndex, rd, idx, high, .inr hd⟩
  | div rd rs1 rs2 =>
    by_cases zero : s.readV rs2 = 0#256
    · exact .inr ⟨.divByZero, rd, rd, rs1, rs2, zero, .inl hd⟩
    · exact .inl ⟨_, _, _, _, exec_div_of_ne s rd rs1 zero⟩
  | mod rd rs1 rs2 =>
    by_cases zero : s.readV rs2 = 0#256
    · exact .inr ⟨.divByZero, rd, rd, rs1, rs2, zero, .inr (.inl hd)⟩
    · exact .inl ⟨_, _, _, _, exec_mod_of_ne s rd rs1 zero⟩
  | divmod rd rd2 rs1 rs2 =>
    by_cases zero : s.readV rs2 = 0#256
    · exact .inr ⟨.divByZero, rd, rd2, rs1, rs2, zero, .inr (.inr hd)⟩
    · exact .inl ⟨_, _, _, _, exec_divmod_of_ne s rd rd2 rs1 zero⟩
  | shl rd rs1 =>
    exact (shiftCommand_completes_or_le s _ rd _ _).imp_right fun large =>
      ⟨.shiftRange, rd, rs1, 0, .inl ⟨large, .inl hd⟩⟩
  | shr rd rs1 =>
    exact (shiftCommand_completes_or_le s _ rd _ _).imp_right fun large =>
      ⟨.shiftRange, rd, rs1, 0, .inl ⟨large, .inr hd⟩⟩
  | shlv rd rs1 rs2 =>
    exact (shiftCommand_completes_or_le s _ rd _ _).imp_right fun large =>
      ⟨.shiftRange, rd, rs1, rs2, .inr ⟨large, .inl hd⟩⟩
  | shrv rd rs1 rs2 =>
    exact (shiftCommand_completes_or_le s _ rd _ _).imp_right fun large =>
      ⟨.shiftRange, rd, rs1, rs2, .inr ⟨large, .inr hd⟩⟩
  | hexparse rd =>
    cases h : checkText s with
    | ok ds => exact .inl ⟨_, _, _, _, exec_hexparse_of_ok rd h⟩
    | error e =>
      obtain ⟨-, empty⟩ | ⟨-, long⟩ | ⟨-, fits, odd⟩ | ⟨k, -, fits, even, hk, bad, -⟩ := checkText_error_cases s h
      · exact .inr ⟨.hexEmpty, rd, hd, empty⟩
      · exact .inr ⟨.hexTooLong, rd, hd, long⟩
      · exact .inr ⟨.hexOddLength, rd, hd, by omega, odd⟩
      · exact .inr ⟨.hexBadChar, rd, hd, fits, even, k, hk, bad⟩

/-- A CMD write that faults took the fault of a cause whose condition holds, with the cause's information. -/
theorem fault_of_runCommand (hok : s.status.err = false) (ht : runCommand w s = .next t) (herr : t.status.err = true) :
    ∃ c info, t = faultEntry c info w s ∧ CauseHolds w s c ∧ RecordsInfo w s info c := by
  have holds : ∃ c, CauseHolds w s c := by
    cases hd : decode w with
    | error e => exact ⟨.illegalInstr, illegalWord_of_decode_error hd⟩
    | ok i =>
      refine (exec_completes_or_causeHolds s hd).resolve_left fun ⟨v, sr, hb, n, hx⟩ => ?_
      rw [runCommand_of_decode_ok hok hd, hx] at ht
      cases ht
      exact Bool.false_ne_true (hok.symm.trans herr)
  obtain ⟨c, hc⟩ := holds
  obtain ⟨info, run, hinfo⟩ := runCommand_of_causeHolds hok hc
  exact ⟨c, info, Host.Outcome.next.inj (ht.symm.trans run), hc, hinfo⟩

/-! ### Accesses that STATUS does not bear on (60_exceptions.md R1105) -/

variable {off : BitVec 8}

theorem winReg_eq_status_iff (off : BitVec 8) : winReg off = .status ↔ wordOffset off = 0x0C#8 := by
  revert off
  decide

/-- Every read but that of STATUS gives the same word whatever STATUS holds. -/
theorem winRead_with_status (hstatus : wordOffset off ≠ 0x0C#8) (s : State) (st : Status) :
    winRead off { s with status := st } = winRead off s := by
  unfold winRead
  cases hr : winReg off
  case status => exact absurd ((winReg_eq_status_iff off).mp hr) hstatus
  all_goals rfl

/-- Every write but that of CMD and CTRL does the same whatever STATUS holds. -/
theorem winWrite_with_status (hcmd : wordOffset off ≠ 0x00#8) (hctrl : wordOffset off ≠ 0x1C#8) (w : Word) (s : State)
    (st : Status) : ∃ t, winWrite off w s = .next t ∧
      winWrite off w { s with status := st } = .next { t with status := st } := by
  unfold winWrite
  cases hr : winReg off
  case cmd => exact absurd ((winReg_eq_cmd_iff off).mp hr) hcmd
  case ctrl => exact absurd ((winReg_eq_ctrl_iff off).mp hr) hctrl
  all_goals exact ⟨_, rfl, rfl⟩

end Faults

/-! ### The obligations -/

/-- Settles O8: a command counts or faults with its word in FCMD, and a word that does not decode faults likewise. -/
theorem commandsSucceedOrFault : Obligations.CommandsSucceedOrFault := by
  refine ⟨exec_counts_or_faults, fun w s hok => ?_⟩
  obtain ⟨-, illegal, legal⟩ := cmdWriteRunsDecodedCommand w s
  cases hd : decode w with
  | error e =>
    obtain ⟨t, ht, fault⟩ := illegal hok e hd
    exact ⟨t, ht, .inr ⟨_, _, fault⟩⟩
  | ok i =>
    obtain ⟨run, t, ht, outcome⟩ := legal hok i hd
    exact ⟨t, run.trans ht, outcome⟩

/-- Settles O9: a condition that holds makes the write take its fault, so no two hold together, and a write that faults
took the fault of one that holds. -/
theorem faultCauses : Obligations.FaultCauses := by
  intro w s hok
  obtain ⟨t, ht, -⟩ := runCommand_outcome (w := w) hok
  refine ⟨t, (winWrite_cmd rfl).trans ht, fun c => ⟨fun ⟨herr, hcode⟩ => ?recorded, fun hc => ?holds⟩, fun herr => ?known⟩
  case recorded =>
    obtain ⟨c', info, rfl, hc', -⟩ := fault_of_runCommand hok ht herr
    rwa [← Cause.code_injective hcode]
  case holds =>
    obtain ⟨info, run, -⟩ := runCommand_of_causeHolds hok hc
    cases ht.symm.trans run
    exact ⟨rfl, rfl⟩
  case known =>
    obtain ⟨c, info, rfl, -⟩ := fault_of_runCommand hok ht herr
    exact ⟨c, rfl⟩

/-- Settles O10: the code recorded tells the cause, and the cause tells what FINFO holds. -/
theorem faultInformation : Obligations.FaultInformation := by
  intro w s t hok ht herr
  rw [winWrite_cmd rfl] at ht
  obtain ⟨c, info, rfl, -, hinfo⟩ := fault_of_runCommand hok ht herr
  have known {c' : Cause} (hcode : c.code = c'.code) : RecordsInfo w s info c' := Cause.code_injective hcode ▸ hinfo
  refine ⟨rfl, known (c' := .limbIndex), ?length, known (c' := .hexBadChar), ?zero⟩
  case length =>
    rintro (hcode | hcode)
    · exact known (c' := .hexTooLong) hcode
    · exact known (c' := .hexOddLength) hcode
  case zero =>
    rintro (hcode | hcode | hcode | hcode)
    · exact known (c' := .illegalInstr) hcode
    · exact known (c' := .divByZero) hcode
    · exact known (c' := .shiftRange) hcode
    · exact known (c' := .hexEmpty) hcode

/-- Settles O11: the CMD write looks at ERR, CTRL resets whatever STATUS holds, and no other write and no read but STATUS's
own depends on it. -/
theorem faultStateIgnoresCommands : Obligations.FaultStateIgnoresCommands := by
  intro off w s st herr
  refine ⟨fun hcmd => (winWrite_cmd hcmd).trans (runCommand_of_err herr),
    fun hstatus => (winRead_with_status hstatus s st).symm, fun hcmd hctrl => ?write, fun hctrl => ?reset⟩
  case write =>
    obtain ⟨t, ht, same⟩ := winWrite_with_status hcmd hctrl w s st
    obtain ⟨d, hb, n, rfl⟩ := winWrite_outcome_of_ne hcmd hctrl ht
    exact ⟨_, ht, rfl, same⟩
  case reset => rw [winWrite_ctrl hctrl, apply_ite Host.Outcome.next]

end Sys2Proof.Machine
end

section
/-! PROOFS. Round trips of the decoder and the encoder (30_encoding.md R312, R313, R333) and the words written out from the
encoding tables. -/

namespace Sys2Proof

/-- Settles O1: the opcode map gives an encoded instruction its own row, and the word agrees with the row's mask. -/
theorem decodeEncodeRoundTrip : Obligations.DecodeEncodeRoundTrip := fun _ => decode_encode

/-- Settles O2: a word that agrees with its row's mask is 0 wherever the format has no operand, so the fields it is
decoded from give it back. -/
theorem encodeDecodeRoundTrip : Obligations.EncodeDecodeRoundTrip := by
  intro w i h
  obtain ⟨row, -, -, -, -, hwf⟩ := decode_ok h
  exact ⟨hwf, encode_of_decode h⟩

/-- Settles O4: each legal word is the encoding of its command, and the three illegal ones fail at the destinations of DIVMOD,
the opcode map and the mask of ADD. -/
theorem knownWordsDecode : Obligations.KnownWordsDecode := by
  refine ⟨decode_encode (i := .nop) rfl, decode_encode (i := .limbwr 1 3) rfl, decode_encode (i := .sub 3 1 2) rfl,
    decode_encode (i := .divmod 4 5 1 2) rfl, decode_encode (i := .not 3 1) rfl, decode_encode (i := .shrv 3 1 2) rfl,
    decode_encode (i := .cmpeq 2 3) rfl, decode_encode (i := .hexparse 3) rfl, decode_encode (i := .hash 8) rfl,
    decode_encode_of_not_wf (i := .divmod 4 4 1 2) rfl, ?opcode, ?mask⟩
  case opcode => rfl
  case mask => rfl

end Sys2Proof
end

section
/-! PROOFS. Steps, resets and the fault state (20_memory.md R210, 60_exceptions.md R1105 to R1108, 70_reset_and_hazards.md
R1200, R1201): what a step serves, what each reset event leaves, what a step can change in the fault state, and that every step
keeps the fault record consistent; with the eight obligations on them. -/

namespace Sys2Proof.Machine

section Steps

variable {s t : State} {x : Input} {off : BitVec 8} {w : Word} {rest : List Input}

/-! ### A step serves the oldest input (20_memory.md R210) -/

theorem step_of_nil (h : s.inputs = []) : step s = .next s := by
  rw [step, h]

theorem step_of_cons (h : s.inputs = x :: rest) : step s = serve x { s with inputs := rest } := by
  rw [step, h]

theorem serve_write (h : winWrite off w s = .next t) :
    serve (.write off w) s = .next { t with response := some .completion } := by
  rw [serve, h]

/-- Every input is served to a next state, and the inputs after it stay. -/
theorem serve_next (x : Input) (s : State) : ∃ t, serve x s = .next t ∧ t.inputs = s.inputs := by
  cases x with
  | read off => exact ⟨_, rfl, rfl⟩
  | rst => exact ⟨_, rfl, rfl⟩
  | write off w =>
    obtain ⟨t, ht, inputs, -⟩ := winWrite_next off w s
    exact ⟨_, serve_write ht, inputs⟩

/-- Every step answers a next state, with the oldest input taken. -/
theorem step_next (s : State) : ∃ t, step s = .next t ∧ t.inputs = s.inputs.tail := by
  cases h : s.inputs with
  | nil => exact ⟨s, step_of_nil h, h⟩
  | cons x rest =>
    obtain ⟨t, ht, inputs⟩ := serve_next x { s with inputs := rest }
    exact ⟨t, (step_of_cons h).trans ht, inputs⟩

/-! ### The two reset events (70_reset_and_hazards.md R1200) -/

/-- Either reset event resets the block, the port showing the event's answer. -/
theorem serve_of_resets (h : Resets x) (s : State) :
    serve x s = .next { resetBlock s with response := answerTo x s } := by
  cases x with
  | read off => exact h.elim
  | rst => rfl
  | write off w =>
    obtain ⟨hoff, hbit⟩ := h
    have reset : winWrite off w s = .next (resetBlock s) := (winWrite_ctrl hoff).trans (if_pos hbit)
    exact serve_write reset

/-- The response is no element of the block. -/
theorem holdsResetValues_with_response (r : Option Response) (h : HoldsResetValues t) :
    HoldsResetValues { t with response := r } := h

/-- The word that a read answers does not depend on the inputs still to come. -/
theorem answerTo_with_inputs (x : Input) (s : State) (q : List Input) : answerTo x { s with inputs := q } = answerTo x s := rfl

/-! ### The fault state (60_exceptions.md R1105, R1106) -/

/-- All of the block but DATA and the text is as before. -/
def KeepsAllButOperands (s t : State) : Prop :=
  ∃ d hb n q r, t = { s with data := d, hexbuf := hb, hexlen := n, inputs := q, response := r }

theorem KeepsAllButOperands.trans {u : State} (h : KeepsAllButOperands s t) (k : KeepsAllButOperands t u) :
    KeepsAllButOperands s u := by
  obtain ⟨_, _, _, _, _, rfl⟩ := h
  obtain ⟨_, _, _, _, _, rfl⟩ := k
  exact ⟨_, _, _, _, _, rfl⟩

/-- In the fault state a write that is no reset sets DATA and the text at most. -/
theorem winWrite_outcome_of_err (herr : s.status.err = true) (hx : ¬ Resets (.write off w))
    (h : winWrite off w s = .next t) : ∃ d hb n, t = { s with data := d, hexbuf := hb, hexlen := n } := by
  by_cases hcmd : wordOffset off = 0x00#8
  · rw [winWrite_cmd hcmd, runCommand_of_err herr] at h
    cases h
    exact ⟨_, _, _, rfl⟩
  · by_cases hctrl : wordOffset off = 0x1C#8
    · rw [winWrite_ctrl hctrl, if_neg fun hbit => hx ⟨hctrl, hbit⟩] at h
      cases h
      exact ⟨_, _, _, rfl⟩
    · exact winWrite_outcome_of_ne hcmd hctrl h

theorem serve_keeps_of_err (herr : s.status.err = true) (hx : ¬ Resets x) (h : serve x s = .next t) :
    KeepsAllButOperands s t := by
  cases x with
  | read off =>
    cases h
    exact ⟨_, _, _, _, _, rfl⟩
  | rst => exact absurd trivial hx
  | write off w =>
    obtain ⟨u, hu, -⟩ := winWrite_next off w s
    rw [serve_write hu] at h
    cases h
    obtain ⟨d, hb, n, rfl⟩ := winWrite_outcome_of_err herr hx hu
    exact ⟨_, _, _, _, _, rfl⟩

/-- In the fault state a step that serves no reset leaves all of the block but DATA and the text. -/
theorem step_keeps_of_err (herr : s.status.err = true) (hx : ∀ x ∈ s.inputs.head?, ¬ Resets x) (h : step s = .next t) :
    KeepsAllButOperands s t := by
  cases hi : s.inputs with
  | nil =>
    cases (step_of_nil hi).symm.trans h
    exact ⟨_, _, _, _, _, rfl⟩
  | cons x rest =>
    rw [hi] at hx
    rw [step_of_cons hi] at h
    have served : KeepsAllButOperands { s with inputs := rest } t := serve_keeps_of_err herr (hx x rfl) h
    exact KeepsAllButOperands.trans ⟨_, _, _, _, _, rfl⟩ served

/-- In the fault state any number of steps that serve no reset leave all of the block but DATA and the text. -/
theorem run_keeps_of_err (k : Nat) {s : State} (herr : s.status.err = true) (hx : ∀ x ∈ s.inputs.take k, ¬ Resets x)
    (h : Sys2Proof.core.run k s = .next t) : KeepsAllButOperands s t := by
  induction k generalizing s with
  | zero =>
    cases (core_run_zero s).symm.trans h
    exact ⟨_, _, _, _, _, rfl⟩
  | succ k ih =>
    obtain ⟨u, hu, inputs⟩ := step_next s
    have taken : s.inputs.take (k + 1) = s.inputs.head?.toList ++ s.inputs.tail.take k := by cases s.inputs <;> simp
    rw [taken] at hx
    have first : KeepsAllButOperands s u :=
      step_keeps_of_err herr (fun x mem => hx x (List.mem_append_left _ (Option.mem_toList.mpr mem))) hu
    have herr' : u.status.err = true := by
      obtain ⟨_, _, _, _, _, rfl⟩ := first
      exact herr
    have hx' : ∀ x ∈ u.inputs.take k, ¬ Resets x := fun x mem => hx x (List.mem_append_right _ (inputs ▸ mem))
    exact first.trans (ih herr' hx' ((core_run_succ k hu).symm.trans h))

/-! ### The fault record (60_exceptions.md R1102 to R1104) -/

theorem faultRecordOk_congr (hstatus : t.status = s.status) (hfcmd : t.fcmd = s.fcmd) :
    faultRecordOk t = faultRecordOk s := by
  rw [faultRecordOk, faultRecordOk, hstatus, hfcmd]

theorem faultRecordOk_reset : faultRecordOk State.reset = true := rfl

theorem faultRecordOk_resetBlock (s : State) : faultRecordOk (resetBlock s) = true := faultRecordOk_reset

/-- An illegal word's record is consistent. -/
theorem faultRecordOk_faultEntry_illegal {e : Illegal} (hd : decode w = .error e) (s : State) :
    faultRecordOk (faultEntry .illegalInstr 0#8 w s) = true := by
  simp [faultRecordOk, hd, Cause.code]

/-- A record is consistent when the recorded command may raise it. -/
theorem faultRecordOk_faultEntry {i : Instr} {c : Cause} {info : Byte} (hd : decode w = .ok i)
    (h : mayRecord i c.code info = true) (s : State) : faultRecordOk (faultEntry c info w s) = true := by
  simp [faultRecordOk, hd, h]

theorem runCommand_keeps_faultRecordOk (hok : faultRecordOk s = true) (h : runCommand w s = .next t) :
    faultRecordOk t = true := by
  cases herr : s.status.err with
  | true =>
    cases (runCommand_of_err herr).symm.trans h
    exact hok
  | false =>
    cases hd : decode w with
    | error e =>
      cases (runCommand_of_decode_error herr hd).symm.trans h
      exact faultRecordOk_faultEntry_illegal hd s
    | ok i =>
      rw [runCommand_of_decode_ok herr hd] at h
      obtain ⟨u, hu, ⟨v, sr, hb, n, rfl⟩ | ⟨c, info, rfl, raises⟩⟩ := exec_outcome s i <;> cases hu.symm.trans h
      · exact (faultRecordOk_congr rfl rfl).trans hok
      · exact faultRecordOk_faultEntry (encode_of_decode hd ▸ hd) raises s

theorem winWrite_keeps_faultRecordOk (hok : faultRecordOk s = true) (h : winWrite off w s = .next t) :
    faultRecordOk t = true := by
  by_cases hcmd : wordOffset off = 0x00#8
  · exact runCommand_keeps_faultRecordOk hok ((winWrite_cmd hcmd).symm.trans h)
  · by_cases hctrl : wordOffset off = 0x1C#8
    · rw [winWrite_ctrl hctrl] at h
      split at h <;> cases h
      · exact faultRecordOk_resetBlock s
      · exact hok
    · obtain ⟨d, hb, n, rfl⟩ := winWrite_outcome_of_ne hcmd hctrl h
      exact hok

theorem serve_keeps_faultRecordOk (hok : faultRecordOk s = true) (h : serve x s = .next t) : faultRecordOk t = true := by
  cases x with
  | read off =>
    cases h
    exact (faultRecordOk_congr rfl rfl).trans hok
  | rst =>
    cases h
    exact faultRecordOk_reset
  | write off w =>
    obtain ⟨u, hu, -⟩ := winWrite_next off w s
    cases (serve_write hu).symm.trans h
    have kept := winWrite_keeps_faultRecordOk hok hu
    exact (faultRecordOk_congr rfl rfl).trans kept

end Steps

/-! ### The obligations -/

/-- Settles O16: both events leave the state of `resetBlock` but for the port's answer. -/
theorem resetValues : Obligations.ResetValues := by
  refine ⟨resetBlock_holdsResetValues State.reset, fun s => winRead_id rfl, fun s x hx => ⟨_, serve_of_resets hx s, ?_⟩⟩
  exact holdsResetValues_with_response _ (resetBlock_holdsResetValues s)

/-- Settles O18: the two states differ in the port's answer alone. -/
theorem rstAndCtrlResetAlike : Obligations.RstAndCtrlResetAlike := by
  intro s off w hoff hbit
  exact ⟨_, _, serve_of_resets (x := .write off w) ⟨hoff, hbit⟩ s, serve_of_resets (x := .rst) trivial s, rfl, rfl⟩

/-- Settles O7: by the kind of the input that the step takes. -/
theorem stepServesOldestInput : Obligations.StepServesOldestInput := by
  refine ⟨fun s => step_of_nil, fun s x rest h => ?_⟩
  cases x with
  | read off => exact ⟨_, step_read h, rfl, rfl, by rintro _ ⟨⟩; rfl, by rintro _ _ ⟨⟩, by rintro ⟨⟩⟩
  | rst => exact ⟨_, step_rst h, rfl, rfl, by rintro _ ⟨⟩, by rintro _ _ ⟨⟩, fun _ => rfl⟩
  | write off w =>
    obtain ⟨u, hu, inputs, -⟩ := winWrite_next off w { s with inputs := rest }
    exact ⟨_, (step_of_cons h).trans (serve_write hu), inputs, rfl, by rintro _ ⟨⟩,
      by rintro _ _ ⟨⟩; exact ⟨u, hu, rfl⟩, by rintro ⟨⟩⟩

/-- Settles O6: the step is the CMD write, whose three cases CmdWriteRunsDecodedCommand gives. -/
theorem stepRunsDecodedCommand : Obligations.StepRunsDecodedCommand := by
  intro s off w rest h hoff
  obtain ⟨ignored, -, legal⟩ := cmdWriteRunsDecodedCommand w { s with inputs := rest }
  rw [← winWrite_of_wordOffset (off := off) hoff] at ignored legal
  have answered {t : State} (ht : winWrite off w { s with inputs := rest } = .next t) :
      step s = .next { t with response := some .completion } := (step_of_cons h).trans (serve_write ht)
  refine ⟨fun herr => answered (ignored herr), fun hok e hd => ?illegal, fun hok i hd => ?legal⟩
  case illegal =>
    have ht := (winWrite_cmd hoff).trans (runCommand_of_decode_error (s := { s with inputs := rest }) hok hd)
    exact ⟨_, answered ht, faultEntry_faultsWith { s with inputs := rest, response := some .completion } _ _ w⟩
  case legal =>
    obtain ⟨run, t, ht, outcome⟩ := legal hok i hd
    exact ⟨t, ht, answered (run.trans ht), outcome⟩

/-- Settles O12: a step in the fault state leaves STATUS and FCMD unless the input it takes is a reset, and either reset event
gives the reset state. -/
theorem onlyResetLeavesFaultState : Obligations.OnlyResetLeavesFaultState := by
  refine ⟨fun s t herr h => ?kept, fun s x rest hi hx => ?reset⟩
  case kept =>
    by_cases hx : ∀ x ∈ s.inputs.head?, ¬ Resets x
    · obtain ⟨d, hb, n, q, r, rfl⟩ := step_keeps_of_err herr hx h
      exact .inl ⟨rfl, rfl⟩
    · push Not at hx
      obtain ⟨x, mem, reset⟩ := hx
      exact .inr ⟨x, _, List.eq_cons_of_mem_head? mem, reset⟩
  case reset =>
    rw [step_of_cons hi, serve_of_resets hx, answerTo_with_inputs]
    rfl

/-- Settles O13: by induction on the steps, all of the block but DATA and the text stays. -/
theorem faultedRunStaysFaulted : Obligations.FaultedRunStaysFaulted := by
  intro k s t herr hx h
  obtain ⟨d, hb, n, q, r, rfl⟩ := run_keeps_of_err k herr hx h
  exact ⟨rfl, rfl, rfl, rfl, rfl, fun _ => rfl⟩

/-- Settles O14: by the input that the step serves, a CMD write by what its word decodes to. -/
theorem faultRecordInvariant : Obligations.FaultRecordInvariant := by
  intro s t hok h
  cases hi : s.inputs with
  | nil =>
    cases (step_of_nil hi).symm.trans h
    exact hok
  | cons x rest => exact serve_keeps_faultRecordOk (s := { s with inputs := rest }) hok ((step_of_cons hi).symm.trans h)

/-- Settles O15: with ERR = 0 the reset state records nothing. -/
theorem resetMeetsFaultRecordInvariant : Obligations.ResetMeetsFaultRecordInvariant := faultRecordOk_reset

end Sys2Proof.Machine
end

section
/-! PROOFS. Window addresses (20_memory.md R200, R201) and the read of a window word after a write (R205, R207, R208), with the
two obligations that follow. -/

namespace Sys2Proof.Machine

/-! ### Host addresses -/

/-- A host address decodes to an offset exactly when it is that offset's address, wherever the window stands. -/
theorem windowOffset_eq_some_iff (a : Nat) (off : BitVec 8) : windowOffset a = some off ↔ a = hostAddress off := by
  have hoff := off.isLt
  unfold windowOffset hostAddress
  split
  · next inside => rw [Option.some_inj, ← BitVec.toNat_inj, BitVec.toNat_ofNat]; omega
  · next outside => exact ⟨nofun, fun h => absurd h (by omega)⟩

/-! ### A word of HEXBUF reads back as written (20_memory.md R207) -/

/-- Words with the same four bytes are equal. -/
theorem word_eq_of_bytes {x y : Word}
    (h : ∀ b : Fin 4, x.extractLsb' (8 * b.val) 8 = y.extractLsb' (8 * b.val) 8) : x = y := by
  apply BitVec.eq_of_getLsbD_eq
  intro i hi
  have bit := congrArg (·.getLsbD (i % 8)) (h ⟨i / 8, by omega⟩)
  have low : i % 8 < 8 := Nat.mod_lt _ (by decide)
  simpa [low, Nat.div_add_mod] using bit

theorem hexWord_setHexWord_self (hb : Vector Byte 64) (j : Fin 16) (w : Word) : hexWord (setHexWord hb j w) j = w :=
  word_eq_of_bytes fun b => (hexWord_byte _ j b).trans (setHexWord_byte hb j w b)

/-- A write of another word leaves the word. -/
theorem hexWord_setHexWord_of_ne (hb : Vector Byte 64) {j k : Fin 16} (w : Word) (h : k ≠ j) :
    hexWord (setHexWord hb j w) k = hexWord hb k := by
  refine word_eq_of_bytes fun b => ?_
  have outside : (4 * k.val + b.val) / 4 ≠ j.val := by omega
  rw [hexWord_byte, hexWord_byte]
  exact setHexWord_other hb j w (by omega) outside

/-! ### Offsets and registers -/

theorem winReg_eq_dataLo_iff (off : BitVec 8) : winReg off = .dataLo ↔ wordOffset off = 0x04#8 := by
  revert off
  decide

theorem winReg_eq_dataHi_iff (off : BitVec 8) : winReg off = .dataHi ↔ wordOffset off = 0x08#8 := by
  revert off
  decide

theorem winReg_eq_hexlen_iff (off : BitVec 8) : winReg off = .hexlen ↔ wordOffset off = 0x18#8 := by
  revert off
  decide

/-- The offsets of HEXBUF name its words. -/
theorem exists_hexbuf_of_mem (off : BitVec 8) :
    0x40 ≤ (wordOffset off).toNat ∧ (wordOffset off).toNat ≤ 0x7C →
      ∃ j : Fin 16, (wordOffset off).toNat = 0x40 + 4 * j.val := by
  revert off
  decide

section Writes

variable {s t : State} {off other : BitVec 8} {w : Word}

/-! ### A write reads back -/

theorem winRead_of_winWrite_dataLo (hoff : wordOffset off = 0x04#8) (h : winWrite off w s = .next t) :
    winRead off t = w := by
  cases (winWrite_dataLo hoff).symm.trans h
  rw [winRead_dataLo hoff, scalarLow_append]

theorem winRead_of_winWrite_dataHi (hoff : wordOffset off = 0x08#8) (h : winWrite off w s = .next t) :
    winRead off t = w := by
  cases (winWrite_dataHi hoff).symm.trans h
  rw [winRead_dataHi hoff, scalarHigh_append]

theorem winRead_of_winWrite_hexbuf {j : Fin 16} (hoff : (wordOffset off).toNat = 0x40 + 4 * j.val)
    (h : winWrite off w s = .next t) : winRead off t = w := by
  cases (winWrite_hexbuf hoff).symm.trans h
  rw [winRead_hexbuf hoff, hexWord_setHexWord_self]

theorem winRead_of_winWrite_hexlen (hoff : wordOffset off = 0x18#8) (h : winWrite off w s = .next t) :
    (winRead off t).toNat = w.toNat % 2 ^ 8 := by
  cases (winWrite_hexlen hoff).symm.trans h
  have extended : ((w.extractLsb' 0 8).zeroExtend 32).toNat = (w.extractLsb' 0 8).toNat :=
    BitVec.toNat_setWidth_of_le (by decide)
  rw [winRead_hexlen hoff, extended, toNat_field, pow_zero, Nat.div_one]

/-! ### Every other word stays -/

/-- After a write of DATA's low half only the read of that half differs. -/
theorem winRead_with_dataLo (h : winReg other ≠ .dataLo) (s : State) (w : Word) :
    winRead other { s with data := scalarHigh s.data ++ w } = winRead other s := by
  unfold winRead
  cases hr : winReg other
  case dataLo => exact absurd hr h
  case dataHi => exact scalarHigh_append _ w
  all_goals rfl

/-- After a write of DATA's high half only the read of that half differs. -/
theorem winRead_with_dataHi (h : winReg other ≠ .dataHi) (s : State) (w : Word) :
    winRead other { s with data := w ++ scalarLow s.data } = winRead other s := by
  unfold winRead
  cases hr : winReg other
  case dataHi => exact absurd hr h
  case dataLo => exact scalarLow_append w _
  all_goals rfl

theorem winRead_with_hexlen (h : winReg other ≠ .hexlen) (s : State) (n : Byte) :
    winRead other { s with hexlen := n } = winRead other s := by
  unfold winRead
  cases hr : winReg other
  case hexlen => exact absurd hr h
  all_goals rfl

theorem winRead_with_hexWord {j : Fin 16} (h : winReg other ≠ .hexbuf j) (s : State) (w : Word) :
    winRead other { s with hexbuf := setHexWord s.hexbuf j w } = winRead other s := by
  unfold winRead
  cases hr : winReg other
  case hexbuf k => exact hexWord_setHexWord_of_ne s.hexbuf w fun same => h (same ▸ hr)
  all_goals rfl

/-- A write anywhere but CMD and CTRL leaves every other word of the window (20_memory.md R208). -/
theorem winRead_of_winWrite_other (hcmd : wordOffset off ≠ 0x00#8) (hctrl : wordOffset off ≠ 0x1C#8)
    (hne : wordOffset other ≠ wordOffset off) (h : winWrite off w s = .next t) : winRead other t = winRead other s := by
  unfold winWrite at h
  cases hr : winReg off <;> rw [hr] at h
  case cmd => exact absurd ((winReg_eq_cmd_iff off).mp hr) hcmd
  case ctrl => exact absurd ((winReg_eq_ctrl_iff off).mp hr) hctrl
  case dataLo =>
    rw [winReg_eq_dataLo_iff] at hr
    cases h
    exact winRead_with_dataLo (mt (winReg_eq_dataLo_iff other).mp (hr ▸ hne)) s w
  case dataHi =>
    rw [winReg_eq_dataHi_iff] at hr
    cases h
    exact winRead_with_dataHi (mt (winReg_eq_dataHi_iff other).mp (hr ▸ hne)) s w
  case hexlen =>
    rw [winReg_eq_hexlen_iff] at hr
    cases h
    exact winRead_with_hexlen (mt (winReg_eq_hexlen_iff other).mp (hr ▸ hne)) s _
  case hexbuf j =>
    rw [winReg_eq_hexbuf_iff] at hr
    cases h
    refine winRead_with_hexWord (fun same => hne (BitVec.eq_of_toNat_eq ?_)) s w
    rw [(winReg_eq_hexbuf_iff other j).mp same, hr]
  all_goals
    cases h
    rfl

end Writes

/-! ### The obligations -/

/-- Settles O23: an address decodes to an offset exactly when it is that offset's address. -/
theorem windowAddressing : Obligations.WindowAddressing :=
  ⟨fun off => (windowOffset_eq_some_iff _ off).mpr rfl, fun a => exists_congr (windowOffset_eq_some_iff a)⟩

/-- Settles O21: by the register written; each write sets one word of the window. -/
theorem windowWriteReadsBack : Obligations.WindowWriteReadsBack := by
  intro s t off w h
  refine ⟨?readBack, fun hoff => winRead_of_winWrite_hexlen hoff h,
    fun hcmd hctrl other hne => winRead_of_winWrite_other hcmd hctrl hne h⟩
  rintro (dataLo | dataHi | hexbuf)
  · exact winRead_of_winWrite_dataLo dataLo h
  · exact winRead_of_winWrite_dataHi dataHi h
  · obtain ⟨j, hj⟩ := exists_hexbuf_of_mem off hexbuf
    exact winRead_of_winWrite_hexbuf hj h

end Sys2Proof.Machine
end

section
/-! PROOFS. The division law by commands (41_arithmetic.md R506), the order limb by limb (44_ordering.md R800) and the hash of
a value (46_convert_hash.md R1003), with the three obligations on them. -/

namespace Sys2Proof.Machine

/-! ### Values -/

/-- Quotient times divisor plus remainder is the dividend, and neither the product nor the sum wraps (41_arithmetic.md R506). -/
theorem addValue_mulValue_quotient_remainder (a b : Value) :
    addValue (mulValue (quotient a b) b) (remainder a b) = a := by
  apply BitVec.eq_of_toNat_eq
  rw [addValue_toNat, mulValue_toNat, Nat.mod_add_mod, ← quotient_mul_add_remainder, Nat.mod_eq_of_lt a.isLt]

/-- Values are equal exactly when their limbs are. -/
theorem eq_iff_forall_limb_eq (a b : Value) : a = b ↔ ∀ k, limb a k = limb b k :=
  ⟨fun h _ => h ▸ rfl, fun h => eq_of_limbs_eq (by simp only [limbs, h])⟩

/-- One list of limbs is below another when, after equal limbs, its own is the smaller. -/
theorem ltLimbs_iff_exists (as bs : List Limb) : ltLimbs as bs = true ↔
    ∃ (k : Nat) (a b : Limb), (∀ j < k, as[j]? = bs[j]?) ∧ as[k]? = some a ∧ bs[k]? = some b ∧ a.toNat < b.toNat := by
  induction as generalizing bs with
  | nil => simp [ltLimbs]
  | cons x xs ih =>
    cases bs with
    | nil => simp [ltLimbs]
    | cons y ys =>
      rw [ltLimbs]
      split
      · next equal =>
        subst equal
        rw [ih]
        constructor
        · rintro ⟨k, a, b, before, ha, hb, less⟩
          refine ⟨k + 1, a, b, fun j hj => ?_, ha, hb, less⟩
          cases j with
          | zero => rfl
          | succ j => exact before j (Nat.lt_of_succ_lt_succ hj)
        · rintro ⟨k, a, b, before, ha, hb, less⟩
          cases k with
          | zero =>
            cases ha
            cases hb
            exact absurd less (Nat.lt_irrefl _)
          | succ k => exact ⟨k, a, b, fun j hj => before (j + 1) (Nat.succ_lt_succ hj), ha, hb, less⟩
      · next unequal =>
        rw [decide_eq_true_iff]
        constructor
        · exact fun less => ⟨0, x, y, nofun, rfl, rfl, less⟩
        · rintro ⟨k, a, b, before, ha, hb, less⟩
          cases k with
          | zero =>
            cases ha
            cases hb
            exact less
          | succ k => exact absurd (Option.some.inj (before 0 (Nat.succ_pos k))) unequal

/-- lt is decided by the first unequal limb, limb 0 first (44_ordering.md R800). -/
theorem ltValue_iff_exists_limb (a b : Value) : ltValue a b = true ↔
    ∃ k : Fin 8, (∀ j : Fin 8, j.val < k.val → limb a j = limb b j) ∧ (limb a k).toNat < (limb b k).toNat := by
  rw [ltValue, ltLimbs_iff_exists]
  constructor
  · rintro ⟨k, x, y, before, hx, hy, less⟩
    have hk : k < 8 := (List.getElem?_eq_some_iff.mp hx).1
    cases (limbs_getElem? a ⟨k, hk⟩).symm.trans hx
    cases (limbs_getElem? b ⟨k, hk⟩).symm.trans hy
    refine ⟨⟨k, hk⟩, fun j hj => ?_, less⟩
    have same := before j hj
    rwa [limbs_getElem?, limbs_getElem?, Option.some_inj] at same
  · rintro ⟨k, before, less⟩
    refine ⟨k, limb a k, limb b k, fun j hj => ?_, limbs_getElem? a k, limbs_getElem? b k, less⟩
    have same := before ⟨j, hj.trans k.isLt⟩ hj
    rw [← Option.some_inj, ← limbs_getElem?, ← limbs_getElem?] at same
    exact same

/-- The eight limbs in a row are the vector of limb k at k. -/
theorem hashValue_eq (x : Value) : hashValue x = Config.hashFn (Vector.ofFn fun k => limb x k) := rfl

/-! ### The obligations -/

/-- Settles O35: each command writes a register that no later command reads as an operand of the division, so the last
sum is of the quotient's product and the remainder. -/
theorem divisionLawByCommands : Obligations.DivisionLawByCommands := by
  intro s q r p rs1 rs2 distinct nonzero
  simp only [List.nodup_cons, List.mem_cons, List.not_mem_nil, or_false, not_or] at distinct
  obtain ⟨⟨qr, qp, q1, q2⟩, ⟨rp, r1, r2⟩, ⟨p1, p2⟩, -⟩ := distinct
  have mod_ne : ((s.writeV q (quotient (s.readV rs1) (s.readV rs2))).countCommand).readV rs2 ≠ 0#256 := by
    rwa [State.countCommand_readV, State.writeV_readV_of_ne _ _ (Ne.symm q2)]
  refine ⟨_, _, _, _, exec_div_of_ne s q rs1 nonzero, exec_mod_of_ne _ r rs1 mod_ne, exec_mul _ p q rs2,
    exec_add _ p p r, ?dividend, ?remainder⟩
  case dividend =>
    simp only [State.countCommand_readV, State.writeV_readV, if_true, qr, rp, Ne.symm q1, Ne.symm q2, Ne.symm r2, if_false]
    exact addValue_mulValue_quotient_remainder _ _
  case remainder =>
    simp only [State.countCommand_readV, State.writeV_readV, if_true, rp, Ne.symm q1, Ne.symm q2, if_false]
    exact remainder_lt _ nonzero

/-- Settles O42: equality limb by limb is equality, and the first unequal limb decides as the numbers do. -/
theorem limbOrderIsNumericOrder : Obligations.LimbOrderIsNumericOrder := fun a b =>
  ⟨(eqValue_iff a b).trans (eq_iff_forall_limb_eq a b), eqValue_iff a b, ltValue_iff a b, ltValue_iff_exists_limb a b⟩

/-- Settles O50: SR takes the hash of the value read, so an equal value in any register gives an equal SR. -/
theorem hashDependsOnLimbsAlone : Obligations.HashDependsOnLimbsAlone := by
  intro rs1 s
  refine ⟨encodedAs_of_wf rfl (opField_pack ..) rfl, _, exec_hash s rs1, writeSR_writesOnlySR s _, hashValue_eq _,
    fun rs s' same => ⟨_, exec_hash s' rs, ?_⟩⟩
  rw [sr_countCommand_writeSR, sr_countCommand_writeSR, same]

end Sys2Proof.Machine
end

section
/-! PROOFS. What a command reads and writes (10_state.md R103, R106, R107, R116): the effect of a command as a value of its
operands alone, and the three obligations that follow. -/

namespace Sys2Proof.Machine

/-! ### Effects -/

/-- What a command does to the block: the writes it commits, or the fault it takes (30_encoding.md R320). -/
inductive Effect where
  | count
  | value (rd : VReg) (x : Value)
  | values (rd rd2 : VReg) (x y : Value)
  | scalar (x : Scalar)
  | text (hb : Vector Byte 64) (n : Byte)
  | fault (c : Cause) (info : Byte)

/-- The state after instruction `i` had the effect. -/
def Effect.apply (i : Instr) (s : State) : Effect → State
  | .count => s.countCommand
  | .value rd x => (s.writeV rd x).countCommand
  | .values rd rd2 x y => ((s.writeV rd x).writeV rd2 y).countCommand
  | .scalar x => (s.writeSR x).countCommand
  | .text hb n => (s.writeText hb n).countCommand
  | .fault c info => faultEntry c info (encode i) s

/-- The effect writes no value register but destinations of `i`, and SR exactly when `i` is a command that does. -/
def Effect.AllowedBy (i : Instr) : Effect → Prop
  | .count => writesSR i = false
  | .value rd _ => rd ∈ destRegs i ∧ writesSR i = false
  | .values rd rd2 _ _ => (rd ∈ destRegs i ∧ rd2 ∈ destRegs i) ∧ writesSR i = false
  | .scalar _ => writesSR i = true
  | .text _ _ => writesSR i = false
  | .fault _ _ => True

/-- Two states that agree in all that instruction `i` reads: its source registers, the text, and DATA if `i` reads it. -/
structure SameOperands (i : Instr) (s t : State) : Prop where
  readV : ∀ r ∈ sourceRegs i, t.readV r = s.readV r
  data : readsData i = true → t.data = s.data
  hexbuf : t.hexbuf = s.hexbuf
  hexlen : t.hexlen = s.hexlen

/-- In every state that agrees with `s` in the operands of `i`, the instruction has one and the same allowed effect. -/
def HasEffect (i : Instr) (s : State) : Prop :=
  ∃ e : Effect, e.AllowedBy i ∧ ∀ t, SameOperands i s t → exec i t = .next (e.apply i t)

section Shapes

variable {i : Instr} {s : State}

theorem SameOperands.refl (i : Instr) (s : State) : SameOperands i s s := ⟨fun _ _ => rfl, fun _ => rfl, rfl, rfl⟩

theorem SameOperands.checkText {t : State} (h : SameOperands i s t) : checkText t = checkText s :=
  checkText_congr s h.hexlen fun j _ => by rw [charAt, charAt, h.hexbuf]

/-! ### The shapes of effect -/

/-- A command that writes one value register with a function of its operands. -/
theorem hasEffect_value {rd : VReg} (x : State → Value) (hdest : rd ∈ destRegs i ∧ writesSR i = false)
    (hx : ∀ t, SameOperands i s t → x t = x s)
    (run : ∀ t, SameOperands i s t → exec i t = .next (t.writeV rd (x t)).countCommand) : HasEffect i s :=
  ⟨.value rd (x s), hdest, fun t h => by rw [run t h, hx t h]; rfl⟩

/-- A command that writes SR with a function of its operands. -/
theorem hasEffect_scalar (x : State → Scalar) (hsr : writesSR i = true) (hx : ∀ t, SameOperands i s t → x t = x s)
    (run : ∀ t, SameOperands i s t → exec i t = .next (t.writeSR (x t)).countCommand) : HasEffect i s :=
  ⟨.scalar (x s), hsr, fun t h => by rw [run t h, hx t h]; rfl⟩

theorem hasEffect_fault {c : Cause} {info : Byte}
    (run : ∀ t, SameOperands i s t → exec i t = .next (faultEntry c info (encode i) t)) : HasEffect i s :=
  ⟨.fault c info, trivial, run⟩

/-- A shift by an amount that is a function of its operands. -/
theorem hasEffect_shift {rd : VReg} (x : State → Value) (n : State → Nat) (hdest : rd ∈ destRegs i ∧ writesSR i = false)
    (hx : ∀ t, SameOperands i s t → x t = x s) (hn : ∀ t, SameOperands i s t → n t = n s)
    (run : ∀ t, exec i t = shiftCommand i rd (x t) (n t) t) : HasEffect i s := by
  obtain small | large := Nat.lt_or_ge (n s) (2 ^ 32)
  · exact hasEffect_value x hdest hx fun t h => (run t).trans (shiftCommand_of_lt t i rd _ (hn t h ▸ small))
  · exact hasEffect_fault fun t h => (run t).trans (shiftCommand_of_le t i rd _ (hn t h ▸ large))

end Shapes

/-- A command's effect is a function of its operands: by the rule of each command. -/
theorem exec_hasEffect (i : Instr) (s : State) : HasEffect i s := by
  cases i with
  | nop => exact ⟨.count, rfl, fun _ _ => rfl⟩
  | zero rd =>
    exact hasEffect_value _ ⟨List.mem_singleton_self rd, rfl⟩ (fun _ _ => rfl) fun t _ => exec_zero t rd
  | ldi32 rd =>
    exact hasEffect_value _ ⟨List.mem_singleton_self rd, rfl⟩ (fun t h => by rw [h.data rfl]) fun t _ => exec_ldi32 t rd
  | ldi64 rd =>
    exact hasEffect_value _ ⟨List.mem_singleton_self rd, rfl⟩ (fun t h => by rw [h.data rfl]) fun t _ => exec_ldi64 t rd
  | mov rd rs1 | not rd rs1 =>
    exact hasEffect_value _ ⟨List.mem_singleton_self rd, rfl⟩
      (fun t h => by rw [h.readV rs1 (by simp [sourceRegs])]) fun t _ => rfl
  | add rd rs1 rs2 | sub rd rs1 rs2 | mul rd rs1 rs2 | and rd rs1 rs2 | or rd rs1 rs2 | xor rd rs1 rs2 =>
    exact hasEffect_value _ ⟨List.mem_singleton_self rd, rfl⟩
      (fun t h => by rw [h.readV rs1 (by simp [sourceRegs]), h.readV rs2 (by simp [sourceRegs])]) fun t _ => rfl
  | div rd rs1 rs2 =>
    have same (t : State) (h : SameOperands (.div rd rs1 rs2) s t) : t.readV rs2 = s.readV rs2 :=
      h.readV rs2 (by simp [sourceRegs])
    by_cases zero : s.readV rs2 = 0#256
    · exact hasEffect_fault fun t h => exec_div_of_eq t rd rs1 ((same t h).trans zero)
    · exact hasEffect_value _ ⟨List.mem_singleton_self rd, rfl⟩
        (fun t h => by rw [h.readV rs1 (by simp [sourceRegs]), same t h])
        fun t h => exec_div_of_ne t rd rs1 (same t h ▸ zero)
  | mod rd rs1 rs2 =>
    have same (t : State) (h : SameOperands (.mod rd rs1 rs2) s t) : t.readV rs2 = s.readV rs2 :=
      h.readV rs2 (by simp [sourceRegs])
    by_cases zero : s.readV rs2 = 0#256
    · exact hasEffect_fault fun t h => exec_mod_of_eq t rd rs1 ((same t h).trans zero)
    · exact hasEffect_value _ ⟨List.mem_singleton_self rd, rfl⟩
        (fun t h => by rw [h.readV rs1 (by simp [sourceRegs]), same t h])
        fun t h => exec_mod_of_ne t rd rs1 (same t h ▸ zero)
  | divmod rd rd2 rs1 rs2 =>
    have same (t : State) (h : SameOperands (.divmod rd rd2 rs1 rs2) s t) :
        t.readV rs1 = s.readV rs1 ∧ t.readV rs2 = s.readV rs2 :=
      ⟨h.readV rs1 (by simp [sourceRegs]), h.readV rs2 (by simp [sourceRegs])⟩
    by_cases zero : s.readV rs2 = 0#256
    · exact hasEffect_fault fun t h => exec_divmod_of_eq t rd rd2 rs1 ((same t h).2.trans zero)
    · refine ⟨.values rd rd2 (quotient (s.readV rs1) (s.readV rs2)) (remainder (s.readV rs1) (s.readV rs2)),
        by simp [Effect.AllowedBy, destRegs, writesSR], fun t h => ?_⟩
      obtain ⟨dividend, divisor⟩ := same t h
      rw [exec_divmod_of_ne t rd rd2 rs1 (divisor ▸ zero), dividend, divisor]
      rfl
  | shl rd rs1 | shr rd rs1 =>
    exact hasEffect_shift _ _ ⟨List.mem_singleton_self rd, rfl⟩
      (fun t h => by rw [h.readV rs1 (by simp [sourceRegs]), h.data rfl]) (fun t h => by rw [h.data rfl]) fun _ => rfl
  | shlv rd rs1 rs2 | shrv rd rs1 rs2 =>
    exact hasEffect_shift _ _ ⟨List.mem_singleton_self rd, rfl⟩
      (fun t h => by rw [h.readV rs1 (by simp [sourceRegs]), h.readV rs2 (by simp [sourceRegs])])
      (fun t h => by rw [h.readV rs2 (by simp [sourceRegs])]) fun _ => rfl
  | cmpeq rs1 rs2 | cmplt rs1 rs2 | cmple rs1 rs2 | cmpgt rs1 rs2 | cmpge rs1 rs2 =>
    exact hasEffect_scalar _ rfl
      (fun t h => by rw [h.readV rs1 (by simp [sourceRegs]), h.readV rs2 (by simp [sourceRegs])]) fun t _ => rfl
  | trunc32 rs1 =>
    exact hasEffect_scalar _ rfl (fun t h => by rw [h.readV rs1 (by simp [sourceRegs])]) fun t _ => exec_trunc32 t rs1
  | trunc64 rs1 =>
    exact hasEffect_scalar _ rfl (fun t h => by rw [h.readV rs1 (by simp [sourceRegs])]) fun t _ => exec_trunc64 t rs1
  | tzcnt rs1 =>
    exact hasEffect_scalar _ rfl (fun t h => by rw [h.readV rs1 (by simp [sourceRegs])]) fun t _ => exec_tzcnt t rs1
  | hash rs1 =>
    exact hasEffect_scalar _ rfl (fun t h => by rw [h.readV rs1 (by simp [sourceRegs])]) fun t _ => exec_hash t rs1
  | hexfmt rs1 =>
    exact ⟨.text _ _, rfl, fun t h => by rw [exec_hexfmt, h.readV rs1 (by simp [sourceRegs])]; rfl⟩
  | limbrd rs1 idx =>
    obtain low | high := Nat.lt_or_ge idx.val 8
    · exact hasEffect_scalar _ rfl (fun t h => by rw [h.readV rs1 (by simp [sourceRegs])])
        fun t _ => exec_limbrd_of_lt t rs1 low
    · exact hasEffect_fault fun t _ => exec_limbrd_of_le t rs1 high
  | limbwr rd idx =>
    obtain low | high := Nat.lt_or_ge idx.val 8
    · exact hasEffect_value _ ⟨List.mem_singleton_self rd, rfl⟩
        (fun t h => by rw [h.readV rd (by simp [sourceRegs]), h.data rfl]) fun t _ => exec_limbwr_of_lt t rd low
    · exact hasEffect_fault fun t _ => exec_limbwr_of_le t rd high
  | hexparse rd =>
    cases check : checkText s with
    | ok ds =>
      exact hasEffect_value _ ⟨List.mem_singleton_self rd, rfl⟩ (fun _ _ => rfl)
        fun t h => exec_hexparse_of_ok rd (h.checkText.trans check)
    | error e => exact hasEffect_fault fun t h => exec_hexparse_of_error rd (h.checkText.trans check)

/-! ### An effect in two states -/

namespace Effect

variable {i : Instr} {e : Effect} {s : State}

/-- An effect leaves every value register that its command has no right to write. -/
theorem readV_apply_of_not_mem {r : VReg} (allowed : e.AllowedBy i) (hr : r ∉ destRegs i) :
    (e.apply i s).readV r = s.readV r := by
  have ne {q : VReg} (hq : q ∈ destRegs i) : r ≠ q := fun same => hr (same ▸ hq)
  cases e with
  | count | scalar | text | fault => rfl
  | value rd x => exact s.writeV_readV_of_ne x (ne allowed.1)
  | values rd rd2 x y =>
    obtain ⟨⟨hrd, hrd2⟩, -⟩ := allowed
    rw [Effect.apply, State.countCommand_readV, State.writeV_readV_of_ne _ y (ne hrd2),
      State.writeV_readV_of_ne _ x (ne hrd)]

theorem readV_writeV_congr {t : State} {r q : VReg} (h : t.readV q = s.readV q) (x : Value) :
    (t.writeV r x).readV q = (s.writeV r x).readV q := by
  rw [State.writeV_readV, State.writeV_readV, h]

/-- A register reads alike after one effect in two states in which it read alike. -/
theorem readV_apply_congr {t : State} {q : VReg} (h : t.readV q = s.readV q) :
    (e.apply i t).readV q = (e.apply i s).readV q := by
  cases e with
  | count | scalar | text | fault => exact h
  | value rd x => exact readV_writeV_congr h x
  | values rd rd2 x y => exact readV_writeV_congr (readV_writeV_congr h x) y

/-- A value register that an effect finds changed bears on no other element. -/
theorem apply_writeV (r : VReg) (x : Value) :
    (e.apply i (s.writeV r x)).status = (e.apply i s).status ∧ (e.apply i (s.writeV r x)).fcmd = (e.apply i s).fcmd ∧
      (e.apply i (s.writeV r x)).sr = (e.apply i s).sr ∧ (e.apply i (s.writeV r x)).hexbuf = (e.apply i s).hexbuf ∧
      (e.apply i (s.writeV r x)).hexlen = (e.apply i s).hexlen ∧
      (e.apply i (s.writeV r x)).ccnt = (e.apply i s).ccnt := by
  cases e <;> exact ⟨rfl, rfl, rfl, rfl, rfl, rfl⟩

theorem data_apply : (e.apply i s).data = s.data := by
  cases e <;> rfl

theorem sr_apply_of_writesSR_false (allowed : e.AllowedBy i) (hsr : writesSR i = false) : (e.apply i s).sr = s.sr := by
  cases e with
  | scalar x => exact absurd (hsr.symm.trans allowed) Bool.false_ne_true
  | count | value | values | text | fault => rfl

theorem apply_with_data (x : Scalar) : e.apply i { s with data := x } = { e.apply i s with data := x } := by
  cases e <;> rfl

theorem apply_with_port (q : List Input) (r : Option Response) :
    e.apply i { s with inputs := q, response := r } = { e.apply i s with inputs := q, response := r } := by
  cases e <;> rfl

theorem apply_with_response (r : Option Response) :
    e.apply i { s with response := r } = { e.apply i s with response := r } := by
  cases e <;> rfl

/-- What SR held bears on nothing else; and where a command that writes SR completes, it does not stay. -/
theorem apply_with_sr (allowed : e.AllowedBy i) (x : Scalar) :
    ∃ y, e.apply i { s with sr := x } = { e.apply i s with sr := y } ∧
      ((e.apply i s).ccnt ≠ s.ccnt → writesSR i = true → y = (e.apply i s).sr) := by
  have contra (hsr : writesSR i = false) {p : Prop} (h : writesSR i = true) : p :=
    absurd (hsr.symm.trans h) Bool.false_ne_true
  cases e with
  | scalar z => exact ⟨z, rfl, fun _ _ => rfl⟩
  | fault c info => exact ⟨x, rfl, fun counted => absurd rfl counted⟩
  | count | text => exact ⟨x, rfl, fun _ => contra allowed⟩
  | value | values => exact ⟨x, rfl, fun _ => contra allowed.2⟩

end Effect

/-! ### Operands that agree -/

theorem sameOperands_writeV {i : Instr} {r : VReg} (h : r ∉ sourceRegs i) (s : State) (x : Value) :
    SameOperands i s (s.writeV r x) :=
  ⟨fun _ hq => s.writeV_readV_of_ne x fun same => h (same ▸ hq), fun _ => rfl, rfl, rfl⟩

theorem sameOperands_with_data {i : Instr} (h : readsData i = false) (s : State) (x : Scalar) :
    SameOperands i s { s with data := x } :=
  ⟨fun _ _ => rfl, fun reads => absurd (h.symm.trans reads) Bool.false_ne_true, rfl, rfl⟩

theorem sameOperands_with_sr (i : Instr) (s : State) (x : Scalar) : SameOperands i s { s with sr := x } :=
  ⟨fun _ _ => rfl, fun _ => rfl, rfl, rfl⟩

theorem sameOperands_with_port (i : Instr) (s : State) (q : List Input) (r : Option Response) :
    SameOperands i s { s with inputs := q, response := r } :=
  ⟨fun _ _ => rfl, fun _ => rfl, rfl, rfl⟩

/-! ### The obligations -/

/-- Settles O51: an effect writes destinations alone, and the effect is the same in two states that differ in a register that
is no source. -/
theorem commandsUseOnlyTheirRegisters : Obligations.CommandsUseOnlyTheirRegisters := by
  intro i s r x
  obtain ⟨e, allowed, run⟩ := exec_hasEffect i s
  obtain ⟨t', ht', -⟩ := exec_outcome (s.writeV r x) i
  refine ⟨_, t', run s (SameOperands.refl i s), ht', e.readV_apply_of_not_mem allowed, fun hr => ?unread⟩
  case unread =>
    cases ht'.symm.trans (run _ (sameOperands_writeV hr s x))
    obtain ⟨status, fcmd, sr, hexbuf, hexlen, ccnt⟩ := e.apply_writeV (i := i) (s := s) r x
    exact ⟨status, fcmd, sr, hexbuf, hexlen, ccnt, fun q hq => Effect.readV_apply_congr (s.writeV_readV_of_ne x hq)⟩

/-- Settles O52: no effect writes DATA, SR is written by a scalar effect alone, and the effect is the same in two states that
differ in SR, or in a DATA that is not read. -/
theorem scalarRegisterUse : Obligations.ScalarRegisterUse := by
  intro i s x
  obtain ⟨e, allowed, run⟩ := exec_hasEffect i s
  obtain ⟨y, changed, whole⟩ := Effect.apply_with_sr (s := s) allowed x
  refine ⟨_, run s (SameOperands.refl i s), e.data_apply, e.sr_apply_of_writesSR_false allowed, ⟨y, ?sr, whole⟩,
    fun hdata => ?data⟩
  case sr => rw [run _ (sameOperands_with_sr i s x), changed]
  case data => rw [run _ (sameOperands_with_data hdata s x), e.apply_with_data]

/-- Settles O53: the effect is the same in two states that differ in the port alone, and leaves the port as it found it. -/
theorem commandsDoNotSeeThePort : Obligations.CommandsDoNotSeeThePort := by
  intro i s q r
  obtain ⟨e, -, run⟩ := exec_hasEffect i s
  refine ⟨_, run s (SameOperands.refl i s), ?_⟩
  rw [run _ (sameOperands_with_port i s q r), e.apply_with_port]

end Sys2Proof.Machine
end

section
/-! PROOFS. The accesses of assembler lines (30_encoding.md R331, R332): what a run of the accesses does, one access at a time,
and the two obligations on them. -/

namespace Sys2Proof.Machine

section Accesses

variable {s t : State} {i : Instr} {rest : List Input} {k : Nat}

/-! ### Runs, one access at a time -/

theorem core_run_write {off : BitVec 8} {w : Word} (h : winWrite off w { s with inputs := rest } = .next t) :
    Sys2Proof.core.run (k + 1) { s with inputs := .write off w :: rest } =
      Sys2Proof.core.run k { t with response := some .completion } :=
  core_run_succ k ((step_of_cons rfl).trans (serve_write h))

/-- The write of DATA's low half. -/
theorem core_run_dataLo (w : Word) :
    Sys2Proof.core.run (k + 1) { s with inputs := .write offDataLo w :: rest } = Sys2Proof.core.run k
      { s with data := scalarHigh s.data ++ w, inputs := rest, response := some .completion } :=
  core_run_write (winWrite_dataLo rfl)

/-- The write of DATA's high half. -/
theorem core_run_dataHi (w : Word) :
    Sys2Proof.core.run (k + 1) { s with inputs := .write offDataHi w :: rest } = Sys2Proof.core.run k
      { s with data := w ++ scalarLow s.data, inputs := rest, response := some .completion } :=
  core_run_write (winWrite_dataHi rfl)

/-- The write of a well-formed instruction's word to CMD runs the instruction. -/
theorem core_run_issueWord (hwf : i.wf = true) (hok : s.status.err = false)
    (h : exec i { s with inputs := rest } = .next t) :
    Sys2Proof.core.run (k + 1) { s with inputs := issueWord i :: rest } =
      Sys2Proof.core.run k { t with response := some .completion } :=
  core_run_write ((winWrite_cmd rfl).trans
    ((runCommand_of_decode_ok (s := { s with inputs := rest }) hok (decode_encode hwf)).trans h))

/-- The last access of a line: its command runs, and what the port last showed does not matter to it. -/
theorem core_run_last_issueWord (hwf : i.wf = true) (hok : s.status.err = false)
    (h : exec i { s with inputs := [] } = .next t) :
    Sys2Proof.core.run 1 { s with inputs := [issueWord i], response := some .completion } =
      .next { t with response := some .completion } := by
  obtain ⟨e, -, run⟩ := exec_hasEffect i { s with inputs := [] }
  cases (run _ (SameOperands.refl _ _)).symm.trans h
  have last : exec i { s with inputs := [], response := some .completion } =
      .next { e.apply i { s with inputs := [] } with response := some .completion } := by
    rw [run _ (sameOperands_with_port i { s with inputs := [] } [] _), ← e.apply_with_response]
  exact (core_run_issueWord (s := { s with response := some .completion }) hwf hok last).trans (core_run_zero _)

/-! ### A line with a scalar operand (30_encoding.md R331) -/

/-- A command with a scalar operand is well formed, and its operand has 32 or 64 bits. -/
theorem wf_and_width_of_scalarWidth {width : Nat} (h : scalarWidth i = some width) :
    i.wf = true ∧ (width = 32 ∨ width = 64) := by
  cases i <;> cases h <;> exact ⟨rfl, by decide⟩

theorem issue_of_width_32 {n : Nat} (hwidth : scalarWidth i = some 32) (hn : n < 2 ^ 32) :
    issue i (some n) = some [.write offDataLo (BitVec.ofNat 32 n), issueWord i] := by
  simp only [issue, hwidth, if_pos hn]

theorem issue_of_width_64 {n : Nat} (hwidth : scalarWidth i = some 64) (hn : n < 2 ^ 64) :
    issue i (some n) = some [.write offDataLo (BitVec.ofNat 32 n), .write offDataHi (BitVec.ofNat 32 (n / 2 ^ 32)),
      issueWord i] := by
  simp only [issue, hwidth, if_pos hn]

/-- The two halves of an operand make it up. -/
theorem ofNat_halves (n : Nat) : BitVec.ofNat 32 (n / 2 ^ 32) ++ BitVec.ofNat 32 n = BitVec.ofNat 64 n := by
  apply BitVec.eq_of_toNat_eq
  rw [toNat_append_eq, BitVec.toNat_ofNat, BitVec.toNat_ofNat, BitVec.toNat_ofNat]
  omega

/-- DATA after both halves are written is the operand. -/
theorem data_of_halves (d : Scalar) (n : Nat) :
    BitVec.ofNat 32 (n / 2 ^ 32) ++ scalarLow (scalarHigh d ++ BitVec.ofNat 32 n) = BitVec.ofNat 64 n := by
  rw [scalarLow_append, ofNat_halves]

/-! ### LDI256 (30_encoding.md R332) -/

variable (rd : VReg) (imm : Value)

/-- The limbs `ks` of v[rd] are those of `imm`, each put there by one command, and nothing else that a program sees has
changed but DATA. -/
structure LimbsLoaded (ks : List (Fin 8)) (s t : State) : Prop where
  limbs : ∀ j, limb (t.readV rd) j = if j ∈ ks then limb imm j else limb (s.readV rd) j
  others : ∀ r, r ≠ rd → t.readV r = s.readV r
  sr : t.sr = s.sr
  hexbuf : t.hexbuf = s.hexbuf
  hexlen : t.hexlen = s.hexlen
  status : t.status = s.status
  fcmd : t.fcmd = s.fcmd
  inputs : t.inputs = []
  ccnt : t.ccnt.toNat = (s.ccnt.toNat + ks.length) % 2 ^ 32

/-- The state after limb `j` of `imm` went through DATA into v[rd]. -/
def afterLimb (j : Fin 8) (s : State) : State :=
  { (s.writeV rd (setLimb (s.readV rd) j (limb imm j))).countCommand with
    data := scalarHigh s.data ++ limb imm j
    response := some .completion }

/-- The two accesses of one limb. -/
theorem core_run_ldi256Limb (j : Fin 8) (hok : s.status.err = false) :
    Sys2Proof.core.run (k + 2) { s with inputs := ldi256Limb rd imm j ++ rest } =
      Sys2Proof.core.run k { afterLimb rd imm j s with inputs := rest } := by
  refine (core_run_dataLo _).trans ?_
  refine (core_run_issueWord (s := { s with data := scalarHigh s.data ++ limb imm j, response := some .completion })
    rfl hok (exec_limbwr_of_lt _ rd j.isLt)).trans ?_
  simp only [scalarLow_append]
  rfl

variable {rd imm}

/-- One more limb loaded before the others. -/
theorem LimbsLoaded.cons {j : Fin 8} {ks : List (Fin 8)} (h : LimbsLoaded rd imm ks (afterLimb rd imm j s) t) :
    LimbsLoaded rd imm (j :: ks) s t where
  limbs m := by
    have first : (afterLimb rd imm j s).readV rd = setLimb (s.readV rd) j (limb imm j) := s.writeV_readV_self rd _
    simp only [h.limbs, first, limb_setLimb, List.mem_cons]
    by_cases here : m = j
    · simp [here]
    · simp [here]
  others r hr := (h.others r hr).trans (s.writeV_readV_of_ne _ hr)
  sr := h.sr
  hexbuf := h.hexbuf
  hexlen := h.hexlen
  status := h.status
  fcmd := h.fcmd
  inputs := h.inputs
  ccnt := by
    have first : (afterLimb rd imm j s).ccnt.toNat = (s.ccnt.toNat + 1) % 2 ^ 32 := countCommand_ccnt_toNat s
    rw [h.ccnt, first, Nat.mod_add_mod, List.length_cons, Nat.add_assoc, Nat.add_comm 1]

theorem limbsLoaded_nil (s : State) : LimbsLoaded rd imm [] s { s with inputs := [] } :=
  ⟨fun _ => rfl, fun _ _ => rfl, rfl, rfl, rfl, rfl, rfl, rfl, (Nat.mod_eq_of_lt s.ccnt.isLt).symm⟩

/-- Running the accesses of some limbs, from any state outside the fault state, loads them. -/
theorem core_run_ldi256Limbs (ks : List (Fin 8)) {s : State} (hok : s.status.err = false) :
    ∃ t, Sys2Proof.core.run (ks.flatMap (ldi256Limb rd imm)).length
      { s with inputs := ks.flatMap (ldi256Limb rd imm) } = .next t ∧ LimbsLoaded rd imm ks s t := by
  induction ks generalizing s with
  | nil => exact ⟨_, core_run_zero _, limbsLoaded_nil s⟩
  | cons j ks ih =>
    obtain ⟨t, ht, loaded⟩ := ih (s := afterLimb rd imm j s) hok
    exact ⟨t, (core_run_ldi256Limb rd imm j hok).trans ht, loaded.cons⟩

end Accesses

/-! ### The obligations -/

/-- Settles O55: the DATA writes make up the operand, and the last access is the command. -/
theorem issuedScalarReachesCommand : Obligations.IssuedScalarReachesCommand := by
  intro i n width s hwidth hn hok
  obtain ⟨hwf, rfl | rfl⟩ := wf_and_width_of_scalarWidth hwidth
  case inl =>
    obtain ⟨t, ht, -⟩ := exec_outcome { s with data := scalarHigh s.data ++ BitVec.ofNat 32 n, inputs := [] } i
    exact ⟨t, _, ht, issue_of_width_32 hwidth hn, (core_run_dataLo _).trans
      (core_run_last_issueWord (s := { s with data := scalarHigh s.data ++ BitVec.ofNat 32 n }) hwf hok ht)⟩
  case inr =>
    obtain ⟨t, ht, -⟩ := exec_outcome { s with data := BitVec.ofNat 64 n, inputs := [] } i
    refine ⟨t, _, ht, issue_of_width_64 hwidth hn, (core_run_dataLo _).trans ?_⟩
    refine (core_run_dataHi (s := { s with data := scalarHigh s.data ++ BitVec.ofNat 32 n }) _).trans ?_
    rw [data_of_halves]
    exact core_run_last_issueWord (s := { s with data := BitVec.ofNat 64 n }) hwf hok ht

/-- Settles O56: after the accesses of all eight limbs, every limb of v[rd] is the operand's. -/
theorem ldi256LoadsValue : Obligations.Ldi256LoadsValue := by
  intro rd imm s hok
  obtain ⟨t, ht, loaded⟩ := core_run_ldi256Limbs (rd := rd) (imm := imm) (List.finRange 8) hok
  have value : t.readV rd = imm :=
    (eq_iff_forall_limb_eq _ _).mpr fun j => (loaded.limbs j).trans (if_pos (List.mem_finRange j))
  exact ⟨_, t, rfl, ht, value, loaded.others, loaded.sr, loaded.hexbuf, loaded.hexlen, loaded.status, loaded.fcmd,
    loaded.inputs, loaded.ccnt⟩

end Sys2Proof.Machine
end
